-- ==== Sys2Proof/Word.lean ====
section
/-! DEFINITION. The machine's word and byte types (spec/00_scope.md R3, R5, R6). -/

namespace Sys2Proof

/-- A 16-bit word: the unit of registers, of memory and of instruction length (R3). Its unsigned value `u(v)` of R6
is `v.toNat`, its signed value `s(v)` is `v.toInt`. -/
abbrev Word := BitVec 16

/-- Eight bits: a character, and half a word of an image kept as bytes (R35, R52). -/
abbrev Byte := BitVec 8

end Sys2Proof
end

