-- ==== Sys2Proof/Config.lean ====
section
/-! DEFINITION. The free values of the machine and its open parameter CHAR_IN_EOF
(spec/00_scope.md R4, R7; spec/92_eei_decisions.md). -/

namespace Sys2Proof

/-- The parameter CHAR_IN_EOF (R4, R222): what a read of 0xF820 does when the input stream is empty. -/
inductive CharInEof where
  /-- The read has no step: the machine waits, its state unchanged. -/
  | block
  /-- Every such read returns this fixed word. -/
  | word (w : Word)
  deriving DecidableEq, Repr

/-- The n-th 16-bit draw `any16()` of a run (R7, R220): no value of it is fixed. Log entry 7. -/
opaque Config.anyWord : Nat → Word

/-- The n-th one-bit draw `anybit()` of a run (R7, R131): no value of it is fixed. Log entry 7. -/
opaque Config.anyBit : Nat → Bool

end Sys2Proof
end

