-- ==== Sys2Proof/Syntax.lean ====
section
/-! DEFINITION. The instructions of SimpleCPU16: one constructor for each of the 37 encodings of
spec/30_encoding.md R87 (spec/opcode_table.json). -/

namespace Sys2Proof

/-- The eight general registers (spec/10_state.md R20). `r7` is the stack pointer, `SP` (R22). -/
inductive Reg where
  | r0 | r1 | r2 | r3 | r4 | r5 | r6 | r7
  deriving DecidableEq, Repr

/-- One constructor per row of R87. A register operand `rd` is the Rd field, `rs` the Rs field (R90); a `Word` operand
is the instruction's second word, used as it stands (R82). -/
inductive Instr where
  | nop
  | ldi (rd : Reg) (imm : Word)
  | ldDirect (rd : Reg) (addr : Word)
  | ldIndirect (rd rs : Reg)
  | stDirect (addr : Word) (rs : Reg)
  | stIndirect (rd rs : Reg)
  | mov (rd rs : Reg)
  | add (rd rs : Reg)
  | sub (rd rs : Reg)
  | mul (rd rs : Reg)
  | div (rd rs : Reg)
  | inc (rd : Reg)
  | dec (rd : Reg)
  | addi (rd : Reg) (imm : Word)
  | subi (rd : Reg) (imm : Word)
  | and (rd rs : Reg)
  | or (rd rs : Reg)
  | xor (rd rs : Reg)
  | not (rd : Reg)
  | shl (rd rs : Reg)
  | shr (rd rs : Reg)
  | sar (rd rs : Reg)
  | beq (addr : Word)
  | bne (addr : Word)
  | bgt (addr : Word)
  | blt (addr : Word)
  | bge (addr : Word)
  | ble (addr : Word)
  | bcs (addr : Word)
  | bcc (addr : Word)
  | jmp (addr : Word)
  | push (rs : Reg)
  | pop (rd : Reg)
  | call (addr : Word)
  | ret
  | cmp (rd rs : Reg)
  | halt
  deriving DecidableEq, Repr

end Sys2Proof
end

