-- ==== Sys2Proof/WellFormed.lean ====
section
/-! DEFINITION. The opcode table of spec/30_encoding.md R87 with the strict masks of R89, and what it takes for an encoded
instruction and for a program image to be well formed (R83, R92 to R95; spec/70_reset_and_hazards.md R243).

An `Instr` itself has no ill-formed term: a register operand is one of the eight constructors of `Reg`, a second word is
any 16 bits (R82). What can be ill formed is a sequence of words that claims to be an instruction, or an image. -/

namespace Sys2Proof

/-- One row of R87: the word with its register fields zero, the bits that must equal it, the length in words. -/
structure Row where
  mnemonic : String
  pattern : Word
  mask : Word
  words : Nat
  deriving DecidableEq, Repr

/-- Rows NOP to MOV of R87. -/
def systemAndTransferRows : List Row :=
  [⟨"NOP", 0x0000, 0xFFFF, 1⟩,
   ⟨"LDI", 0x1000, 0xF1FF, 2⟩,
   ⟨"LD__direct", 0x1001, 0xF1FF, 2⟩,
   ⟨"LD__indirect", 0x1002, 0xF03F, 1⟩,
   ⟨"ST__direct", 0x2000, 0xFE3F, 2⟩,
   ⟨"ST__indirect", 0x2001, 0xF03F, 1⟩,
   ⟨"MOV", 0x3000, 0xF03F, 1⟩]

/-- Rows ADD to SUBI of R87. -/
def arithmeticRows : List Row :=
  [⟨"ADD", 0x4000, 0xF03F, 1⟩,
   ⟨"SUB", 0x4001, 0xF03F, 1⟩,
   ⟨"MUL", 0x4002, 0xF03F, 1⟩,
   ⟨"DIV", 0x4003, 0xF03F, 1⟩,
   ⟨"INC", 0x4004, 0xF1FF, 1⟩,
   ⟨"DEC", 0x4005, 0xF1FF, 1⟩,
   ⟨"ADDI", 0x4006, 0xF1FF, 2⟩,
   ⟨"SUBI", 0x4007, 0xF1FF, 2⟩]

/-- Rows AND to SAR of R87. -/
def logicAndShiftRows : List Row :=
  [⟨"AND", 0x5000, 0xF03F, 1⟩,
   ⟨"OR", 0x5001, 0xF03F, 1⟩,
   ⟨"XOR", 0x5002, 0xF03F, 1⟩,
   ⟨"NOT", 0x5003, 0xF1FF, 1⟩,
   ⟨"SHL", 0x6000, 0xF03F, 1⟩,
   ⟨"SHR", 0x6001, 0xF03F, 1⟩,
   ⟨"SAR", 0x6002, 0xF03F, 1⟩]

/-- Rows BEQ to JMP of R87. -/
def branchRows : List Row :=
  [⟨"BEQ", 0x7000, 0xFFFF, 2⟩,
   ⟨"BNE", 0x7001, 0xFFFF, 2⟩,
   ⟨"BGT", 0x7002, 0xFFFF, 2⟩,
   ⟨"BLT", 0x7003, 0xFFFF, 2⟩,
   ⟨"BGE", 0x7004, 0xFFFF, 2⟩,
   ⟨"BLE", 0x7005, 0xFFFF, 2⟩,
   ⟨"BCS", 0x7006, 0xFFFF, 2⟩,
   ⟨"BCC", 0x7007, 0xFFFF, 2⟩,
   ⟨"JMP", 0x8000, 0xFFFF, 2⟩]

/-- Rows PUSH to HALT of R87. -/
def stackAndOtherRows : List Row :=
  [⟨"PUSH", 0x9000, 0xFE3F, 1⟩,
   ⟨"POP", 0x9001, 0xF1FF, 1⟩,
   ⟨"CALL", 0xA000, 0xFFFF, 2⟩,
   ⟨"RET", 0xB000, 0xFFFF, 1⟩,
   ⟨"CMP", 0xC000, 0xF03F, 1⟩,
   ⟨"HALT", 0xF000, 0xFFFF, 1⟩]

/-- All 37 rows of R87. -/
def opcodeTable : List Row :=
  systemAndTransferRows ++ arithmeticRows ++ logicAndShiftRows ++ branchRows ++ stackAndOtherRows

/-- The word has the row's OPCODE and Mode and a zero in each field the row does not use (R89, the strict mask). -/
def Row.hits (row : Row) (w : Word) : Bool := w &&& row.mask == row.pattern

/-- OPCODE and Mode, all that the loose mask 0xF03F selects (R89). -/
def opcodeAndMode (w : Word) : Word := w &&& 0xF03F

/-- R94: opcodes 0xD and 0xE are reserved. -/
def opcodeIsReserved (w : Word) : Bool := w &&& 0xF000 == 0xD000 || w &&& 0xF000 == 0xE000

/-- R93: the word's Mode is one that its OPCODE defines. -/
def modeIsDefined (w : Word) : Bool := opcodeTable.any fun row => opcodeAndMode w == row.pattern

/-- R92: a first word is legal when it matches a row, unused fields (R88, R95) included. -/
def legalWord (w : Word) : Bool := opcodeTable.any fun row => row.hits w

/-- The words are one instruction: a first word whose opcode is not reserved, whose mode is defined and whose unused
fields are zero, followed by as many words as its row asks for (R83). -/
def wellFormed : List Word → Bool
  | [] => false
  | w :: rest =>
    !opcodeIsReserved w && modeIsDefined w && legalWord w &&
      opcodeTable.any fun row => row.hits w && row.words == rest.length + 1

/-- A program image: words with the addresses they are loaded at (R4, `IMAGE`). Where an address stands twice the
first entry counts. -/
abbrev Image := List (Word × Word)

/-- R243: an image places words only where there is storage, gives an address one word, and has a legal instruction,
all its words, at the entry point 0x0000. -/
def imageWellFormed (image : Image) : Bool :=
  image.all (fun cell => decide (cell.1.toNat < 0xF800)) && decide (image.map (·.1)).Nodup &&
    (match image.lookup 0x0000, image.lookup 0x0001 with
     | some w0, some w1 => wellFormed [w0] || wellFormed [w0, w1]
     | some w0, none => wellFormed [w0]
     | none, _ => false)

end Sys2Proof
end

