-- ==== Sys2Proof/Decode.lean ====
section
/-! DEFINITION. The decoder and the encoder (spec/30_encoding.md R80 to R95), and the byte order of a word kept as bytes
(spec/20_memory.md R52, spec/70_reset_and_hazards.md R247). -/

namespace Sys2Proof

/-- Bits 7 to 0 of a word. -/
def lowByte (w : Word) : Byte := w.extractLsb' 0 8

/-- Bits 15 to 8 of a word. -/
def highByte (w : Word) : Byte := w.extractLsb' 8 8

/-- The word whose low and high bytes are given. -/
def joinBytes (low high : Byte) : Word := high ++ low

/-- A word as bytes: least significant first (R52). -/
def wordBytes (w : Word) : List Byte := [lowByte w, highByte w]

/-- R81: bits [15:12]. -/
def opcodeField (w : Word) : BitVec 4 := w.extractLsb' 12 4

/-- R81: bits [11:9]. -/
def rdField (w : Word) : BitVec 3 := w.extractLsb' 9 3

/-- R81: bits [8:6]. -/
def rsField (w : Word) : BitVec 3 := w.extractLsb' 6 3

/-- R81: bits [5:0]. -/
def modeField (w : Word) : BitVec 6 := w.extractLsb' 0 6

/-- The register a 3-bit field names (R20). -/
def Reg.ofField (f : BitVec 3) : Reg :=
  match f.toNat with
  | 0 => .r0
  | 1 => .r1
  | 2 => .r2
  | 3 => .r3
  | 4 => .r4
  | 5 => .r5
  | 6 => .r6
  | _ => .r7

/-- The 3-bit field that names a register (R20). -/
def Reg.field : Reg → BitVec 3
  | .r0 => 0
  | .r1 => 1
  | .r2 => 2
  | .r3 => 3
  | .r4 => 4
  | .r5 => 5
  | .r6 => 6
  | .r7 => 7

/-- Why a sequence of bytes is not an instruction. -/
inductive Reject where
  /-- R94: opcode 0xD or 0xE. -/
  | reservedOpcode
  /-- R93: a Mode its OPCODE does not define. -/
  | undefinedMode
  /-- R95: a register field the instruction does not use is not zero. -/
  | unusedFieldNotZero
  /-- The bytes end before the instruction does (a decoder of byte sequences only: memory does not end there). -/
  | truncated
  deriving DecidableEq, Repr

/-- What a first word tells (R83): a whole instruction, or one that takes a second word. -/
inductive Head where
  | complete (i : Instr)
  | needsWord (build : Word → Instr)

/-- How many words the instruction has (R83). -/
def Head.words : Head → Nat
  | .complete _ => 1
  | .needsWord _ => 2

/-- Formats N0 and I of R89: neither register field is used. -/
def noFields (w : Word) (h : Head) : Except Reject Head :=
  if rdField w = 0 ∧ rsField w = 0 then .ok h else .error .unusedFieldNotZero

/-- Formats Rd1 and RdI of R89: the Rs field is not used. -/
def onlyRd (w : Word) (h : Head) : Except Reject Head :=
  if rsField w = 0 then .ok h else .error .unusedFieldNotZero

/-- Formats Rs1 and RsI of R89: the Rd field is not used. -/
def onlyRs (w : Word) (h : Head) : Except Reject Head :=
  if rdField w = 0 then .ok h else .error .unusedFieldNotZero

/-- Format RR of R89: both register fields are used. -/
def bothFields (_ : Word) (h : Head) : Except Reject Head := .ok h

/-- The decoder of a first word, from R87; R93 and R94 for the words no row defines. -/
def decodeHead (w : Word) : Except Reject Head :=
  let rd := Reg.ofField (rdField w)
  let rs := Reg.ofField (rsField w)
  match (opcodeField w).toNat, (modeField w).toNat with
  | 0x0, 0x00 => noFields w (.complete .nop)
  | 0x1, 0x00 => onlyRd w (.needsWord (.ldi rd))
  | 0x1, 0x01 => onlyRd w (.needsWord (.ldDirect rd))
  | 0x1, 0x02 => bothFields w (.complete (.ldIndirect rd rs))
  | 0x2, 0x00 => onlyRs w (.needsWord fun w => .stDirect w rs)
  | 0x2, 0x01 => bothFields w (.complete (.stIndirect rd rs))
  | 0x3, 0x00 => bothFields w (.complete (.mov rd rs))
  | 0x4, 0x00 => bothFields w (.complete (.add rd rs))
  | 0x4, 0x01 => bothFields w (.complete (.sub rd rs))
  | 0x4, 0x02 => bothFields w (.complete (.mul rd rs))
  | 0x4, 0x03 => bothFields w (.complete (.div rd rs))
  | 0x4, 0x04 => onlyRd w (.complete (.inc rd))
  | 0x4, 0x05 => onlyRd w (.complete (.dec rd))
  | 0x4, 0x06 => onlyRd w (.needsWord (.addi rd))
  | 0x4, 0x07 => onlyRd w (.needsWord (.subi rd))
  | 0x5, 0x00 => bothFields w (.complete (.and rd rs))
  | 0x5, 0x01 => bothFields w (.complete (.or rd rs))
  | 0x5, 0x02 => bothFields w (.complete (.xor rd rs))
  | 0x5, 0x03 => onlyRd w (.complete (.not rd))
  | 0x6, 0x00 => bothFields w (.complete (.shl rd rs))
  | 0x6, 0x01 => bothFields w (.complete (.shr rd rs))
  | 0x6, 0x02 => bothFields w (.complete (.sar rd rs))
  | 0x7, 0x00 => noFields w (.needsWord .beq)
  | 0x7, 0x01 => noFields w (.needsWord .bne)
  | 0x7, 0x02 => noFields w (.needsWord .bgt)
  | 0x7, 0x03 => noFields w (.needsWord .blt)
  | 0x7, 0x04 => noFields w (.needsWord .bge)
  | 0x7, 0x05 => noFields w (.needsWord .ble)
  | 0x7, 0x06 => noFields w (.needsWord .bcs)
  | 0x7, 0x07 => noFields w (.needsWord .bcc)
  | 0x8, 0x00 => noFields w (.needsWord .jmp)
  | 0x9, 0x00 => onlyRs w (.complete (.push rs))
  | 0x9, 0x01 => onlyRd w (.complete (.pop rd))
  | 0xA, 0x00 => noFields w (.needsWord .call)
  | 0xB, 0x00 => noFields w (.complete .ret)
  | 0xC, 0x00 => bothFields w (.complete (.cmp rd rs))
  | 0xF, 0x00 => noFields w (.complete .halt)
  | 0xD, _ => .error .reservedOpcode
  | 0xE, _ => .error .reservedOpcode
  | _, _ => .error .undefinedMode

/-- The decoder of a sequence of bytes, low byte of each word first (R52): the instruction and the bytes after it. -/
def decodeBytes : List Byte → Except Reject (Instr × List Byte)
  | low :: high :: rest =>
    match decodeHead (joinBytes low high) with
    | .error e => .error e
    | .ok (.complete i) => .ok (i, rest)
    | .ok (.needsWord build) =>
      match rest with
      | low2 :: high2 :: rest2 => .ok (build (joinBytes low2 high2), rest2)
      | _ => .error .truncated
  | _ => .error .truncated

/-- R85: the word of an instruction from its four fields. -/
def packWord (opcode : BitVec 4) (rd rs : BitVec 3) (mode : BitVec 6) : Word :=
  (opcode.setWidth 16 <<< 12) ||| (rd.setWidth 16 <<< 9) ||| (rs.setWidth 16 <<< 6) ||| mode.setWidth 16

/-- The words of an instruction, from R87; unused fields are zero (R88). -/
def encodeWords : Instr → List Word
  | .nop => [packWord 0x0 0 0 0x00]
  | .ldi rd w => [packWord 0x1 rd.field 0 0x00, w]
  | .ldDirect rd w => [packWord 0x1 rd.field 0 0x01, w]
  | .ldIndirect rd rs => [packWord 0x1 rd.field rs.field 0x02]
  | .stDirect w rs => [packWord 0x2 0 rs.field 0x00, w]
  | .stIndirect rd rs => [packWord 0x2 rd.field rs.field 0x01]
  | .mov rd rs => [packWord 0x3 rd.field rs.field 0x00]
  | .add rd rs => [packWord 0x4 rd.field rs.field 0x00]
  | .sub rd rs => [packWord 0x4 rd.field rs.field 0x01]
  | .mul rd rs => [packWord 0x4 rd.field rs.field 0x02]
  | .div rd rs => [packWord 0x4 rd.field rs.field 0x03]
  | .inc rd => [packWord 0x4 rd.field 0 0x04]
  | .dec rd => [packWord 0x4 rd.field 0 0x05]
  | .addi rd w => [packWord 0x4 rd.field 0 0x06, w]
  | .subi rd w => [packWord 0x4 rd.field 0 0x07, w]
  | .and rd rs => [packWord 0x5 rd.field rs.field 0x00]
  | .or rd rs => [packWord 0x5 rd.field rs.field 0x01]
  | .xor rd rs => [packWord 0x5 rd.field rs.field 0x02]
  | .not rd => [packWord 0x5 rd.field 0 0x03]
  | .shl rd rs => [packWord 0x6 rd.field rs.field 0x00]
  | .shr rd rs => [packWord 0x6 rd.field rs.field 0x01]
  | .sar rd rs => [packWord 0x6 rd.field rs.field 0x02]
  | .beq w => [packWord 0x7 0 0 0x00, w]
  | .bne w => [packWord 0x7 0 0 0x01, w]
  | .bgt w => [packWord 0x7 0 0 0x02, w]
  | .blt w => [packWord 0x7 0 0 0x03, w]
  | .bge w => [packWord 0x7 0 0 0x04, w]
  | .ble w => [packWord 0x7 0 0 0x05, w]
  | .bcs w => [packWord 0x7 0 0 0x06, w]
  | .bcc w => [packWord 0x7 0 0 0x07, w]
  | .jmp w => [packWord 0x8 0 0 0x00, w]
  | .push rs => [packWord 0x9 0 rs.field 0x00]
  | .pop rd => [packWord 0x9 rd.field 0 0x01]
  | .call w => [packWord 0xA 0 0 0x00, w]
  | .ret => [packWord 0xB 0 0 0x00]
  | .cmp rd rs => [packWord 0xC rd.field rs.field 0x00]
  | .halt => [packWord 0xF 0 0 0x00]

/-- An instruction as bytes, low byte of each word first (R52). -/
def encodeBytes (i : Instr) : List Byte := (encodeWords i).flatMap wordBytes

/-- The length of an instruction in words (R83). -/
def wordCount : Instr → Nat
  | .nop => 1
  | .ldi _ _ => 2
  | .ldDirect _ _ => 2
  | .ldIndirect _ _ => 1
  | .stDirect _ _ => 2
  | .stIndirect _ _ => 1
  | .mov _ _ => 1
  | .add _ _ => 1
  | .sub _ _ => 1
  | .mul _ _ => 1
  | .div _ _ => 1
  | .inc _ => 1
  | .dec _ => 1
  | .addi _ _ => 2
  | .subi _ _ => 2
  | .and _ _ => 1
  | .or _ _ => 1
  | .xor _ _ => 1
  | .not _ => 1
  | .shl _ _ => 1
  | .shr _ _ => 1
  | .sar _ _ => 1
  | .beq _ => 2
  | .bne _ => 2
  | .bgt _ => 2
  | .blt _ => 2
  | .bge _ => 2
  | .ble _ => 2
  | .bcs _ => 2
  | .bcc _ => 2
  | .jmp _ => 2
  | .push _ => 1
  | .pop _ => 1
  | .call _ => 2
  | .ret => 1
  | .cmp _ _ => 1
  | .halt => 1

/-- The two words that `nbits` bits `w` are, numbered as spec/opcode_table.json numbers them: bit 0 is bit 0 of the first
word, the second word's bits count on from 16, every bit above `nbits` is zero. -/
def tableWords (nbits w : Nat) : Word × Word :=
  let v := w % 2 ^ nbits
  (BitVec.ofNat 16 v, BitVec.ofNat 16 (v / 2 ^ 16))

/-- The instruction the decoder reads from those bits, laid out as bytes, low byte of each word first. -/
def decodeTableWord (nbits w : Nat) : Option Instr :=
  match decodeBytes (wordBytes (tableWords nbits w).1 ++ wordBytes (tableWords nbits w).2) with
  | .ok (i, _) => some i
  | .error _ => none

end Sys2Proof
end

