-- ==== Sys2Proof/Machine/Memory.lean ====
section
/-! DEFINITION. Storage (spec/10_state.md R37, spec/20_memory.md R50 to R55): a sorted list of bytes, the word at address
`a` under the keys 2a (its low byte) and 2a + 1 (its high byte), the byte order of R52 and R247. Log entries 5 and 6. -/

namespace Sys2Proof.Machine

/-- What has been written or loaded. A key that is not listed was never written: it reads as no value (R39). -/
abbrev Memory := List Host.Cell

/-- The byte under a key, if it was ever written. -/
def Memory.readCell : Memory → Nat → Option Byte
  | [], _ => none
  | (k, b) :: m, key => if k = key then some b else Memory.readCell m key

/-- Writes the byte under a key, keeping the keys in rising order. -/
def Memory.writeCell : Memory → Nat → Byte → Memory
  | [], key, v => [(key, v)]
  | (k, b) :: m, key, v =>
    if key < k then (key, v) :: (k, b) :: m
    else if key = k then (key, v) :: m
    else (k, b) :: Memory.writeCell m key v

/-- The key of the low byte of the word at an address. -/
def lowKey (a : Word) : Nat := 2 * a.toNat

/-- The key of the high byte of the word at an address. -/
def highKey (a : Word) : Nat := 2 * a.toNat + 1

/-- The word at an address, if it was ever written: both its bytes (R50, R52). -/
def Memory.readWord (m : Memory) (a : Word) : Option Word :=
  match m.readCell (lowKey a), m.readCell (highKey a) with
  | some low, some high => some (joinBytes low high)
  | _, _ => none

/-- Writes the word at an address: both its bytes (R50, R52). -/
def Memory.writeWord (m : Memory) (a v : Word) : Memory :=
  (m.writeCell (lowKey a) (lowByte v)).writeCell (highKey a) (highByte v)

/-- The addresses with storage behind them, 0x0000 to 0xF7FF (R37, R55); the others are the I/O region. -/
abbrev InStorage (a : Word) : Prop := a.toNat < 0xF800

/-- The key of the other byte of the same word. -/
def partnerKey (key : Nat) : Nat := if key % 2 = 0 then key + 1 else key - 1

/-- The canonical form: keys strictly rising, none in the I/O region (R37), and of a word both bytes or neither. An
unlisted key reads as no value, so no listed entry equals what it would read as. -/
abbrev Memory.wf (m : Memory) : Prop :=
  m.Pairwise (fun c d => c.1 < d.1) ∧ (∀ c ∈ m, c.1 < 2 * 0xF800) ∧
    ∀ c ∈ m, (m.readCell (partnerKey c.1)).isSome = true

/-- A write that the loader makes: to storage only, since nothing lies behind the I/O region (R37, R243). -/
def Memory.place (m : Memory) (a v : Word) : Memory :=
  if InStorage a then m.writeWord a v else m

/-- Memory holding an image and nothing else (R38, R243). -/
def Memory.ofImage : Image → Memory
  | [] => []
  | (a, v) :: image => (Memory.ofImage image).place a v

/-- The words of an image kept as bytes: two bytes a word, least significant first (R247). An odd number of bytes, of which
the spec says nothing, is no image: DESIGN CHOICE, log entry 37. -/
def wordsOfBytes : List Byte → Option (List Word)
  | [] => some []
  | low :: high :: rest => (wordsOfBytes rest).map (joinBytes low high :: ·)
  | [_] => none

/-- Words as bytes: least significant byte first, words in order (R247). -/
def bytesOfWords (ws : List Word) : List Byte := ws.flatMap wordBytes

/-- Words at consecutive addresses from an origin on, as an image (R102, R247). -/
def imageAt : Word → List Word → Image
  | _, [] => []
  | a, w :: ws => (a, w) :: imageAt (a + 1) ws

end Sys2Proof.Machine
end

