-- ==== Sys2Proof/Machine/ResetValues.lean ====
section
/-! DEFINITION. The reset values of the registers (spec/10_state.md R38): the two the spec gives, and the model's own
choice where it says "unspecified" (log entries 1, 2 and 3). -/

namespace Sys2Proof.Machine

/-- R38, R241: execution begins at 0x0000 (log entry 28). -/
def resetPc : Word := 0x0000

/-- R38: the stack pointer R7 (log entry 28). -/
def resetSp : Word := 0xE000

/-- R0 to R6: unspecified by R38. DESIGN CHOICE (log entry 1). -/
def resetGeneral : Word := 0x0000

/-- Z, N, C and V: unspecified by R38. DESIGN CHOICE (log entry 2). -/
def resetFlag : Bool := false

/-- IR: unspecified by R38. DESIGN CHOICE (log entry 3). -/
def resetIr : Word := 0x0000

/-- The cycle counter: unspecified by R38. DESIGN CHOICE (log entry 3). -/
def resetCycle : Nat := 0

end Sys2Proof.Machine
end

