-- ==== Sys2Proof/Machine/State.lean ====
section
/-! DEFINITION. The state of the machine (spec/10_state.md), its model faults (spec/60_exceptions.md R203) and the state
after reset (R38). -/

namespace Sys2Proof.Machine

/-- The eight general registers, 16 bits each (R20); `r7` is the stack pointer (R22). -/
structure RegFile where
  r0 : Word
  r1 : Word
  r2 : Word
  r3 : Word
  r4 : Word
  r5 : Word
  r6 : Word
  r7 : Word
  deriving DecidableEq, Repr

/-- The four condition flags (R27). `v` is reserved: no instruction writes or reads it (R29). -/
structure Flags where
  z : Bool
  n : Bool
  c : Bool
  v : Bool
  deriving DecidableEq, Repr

/-- What the output devices have emitted (R35). -/
inductive OutEvent where
  | charOut (b : Byte)
  | intOut (v : Word)
  | strOut (bs : List Byte)
  deriving DecidableEq, Repr

/-- The direction of a data access (R203). -/
inductive AccessKind where
  | read
  | write
  deriving DecidableEq, Repr

/-- The machine. Every field but the last two is the spec's (R20 to R38). -/
structure State where
  /-- The general registers (R20). -/
  regs : RegFile
  /-- The program counter: between instructions the address of the next one's first word (R24). -/
  pc : Word
  /-- The instruction register: the first word of the instruction being executed; nothing reads it (R32). -/
  ir : Word
  /-- The condition flags (R27). -/
  flags : Flags
  /-- The storage behind 0x0000 to 0xF7FF (R37). -/
  mem : Memory
  /-- HALT has been executed (R33). -/
  halted : Bool
  /-- The cycle counter (R34). -/
  cycle : Nat
  /-- The output trace, oldest event first (R35). -/
  out : List OutEvent
  /-- The bytes the character input device has yet to deliver (R36, `in`). -/
  inp : List Byte
  /-- The model's own: the parameter CHAR_IN_EOF (R4, R222), constant through a run. -/
  eof : CharInEof
  /-- The model's own: how many free values the run has drawn (R7). -/
  draws : Nat
  deriving DecidableEq, Repr

/-- The model faults of R203. Each ends the run with no result and no state change (R202, R204). All are safe: the
hardware does something there, and the spec declines to say what. -/
inductive Fault where
  /-- Raised by decoding: the first word at this address is not a legal encoding (R92 to R95). Safe. -/
  | illegalInstruction (a w0 : Word)
  /-- Raised by fetching either word of an instruction from the I/O region (R59). Safe. -/
  | fetchFromMMIO (a : Word)
  /-- Raised by a fetch, a load or the string device: the memory word was never written (R39, R58, R59, R217). Safe. -/
  | uninitialisedRead (a : Word)
  /-- Raised by a data access in the I/O region that no device gives a meaning (R211, R213). Safe. -/
  | badMMIOAccess (a : Word) (kind : AccessKind)
  /-- Raised by the string device: the scan reached the I/O region, or met a word with a zero low byte and a non-zero
  high byte (R218). Safe. -/
  | stringScanFault (a : Word)
  deriving DecidableEq, Repr

/-- An instruction without a meaning. -/
inductive Refusal where
  /-- Raised by exec's arm of an instruction that is not modelled yet. Safe. No arm raises it any more. -/
  | notModelled (mnemonic : String)
  deriving DecidableEq, Repr

/-- The outcome of a step of this machine. -/
abbrev Result := Host.Outcome State Fault Refusal

/-- The machine right after reset (R38, R240), with nothing loaded and no input to come. What R38 leaves unspecified
holds the values of ResetValues.lean (log entries 1 to 5, 7 and 11); `State.boot` gives the reset state for every
choice of them, with an image and an input stream. -/
def State.reset : State where
  regs :=
    { r0 := resetGeneral, r1 := resetGeneral, r2 := resetGeneral, r3 := resetGeneral,
      r4 := resetGeneral, r5 := resetGeneral, r6 := resetGeneral, r7 := resetSp }
  pc := resetPc
  ir := resetIr
  flags := { z := resetFlag, n := resetFlag, c := resetFlag, v := resetFlag }
  mem := []
  halted := false
  cycle := resetCycle
  out := []
  inp := []
  eof := .block
  draws := 0

end Sys2Proof.Machine
end

