-- ==== Sys2Proof/Machine/Registers.lean ====
section
/-! DEFINITION. The named operations over the registers (spec/10_state.md R20 to R36): every read and write of a piece of
state goes through one of these. -/

namespace Sys2Proof.Machine

/-- Reads a register of the file (R20, R21: none is hardwired). -/
def RegFile.get (f : RegFile) : Reg → Word
  | .r0 => f.r0
  | .r1 => f.r1
  | .r2 => f.r2
  | .r3 => f.r3
  | .r4 => f.r4
  | .r5 => f.r5
  | .r6 => f.r6
  | .r7 => f.r7

/-- Writes a register of the file. -/
def RegFile.set (f : RegFile) (r : Reg) (v : Word) : RegFile :=
  match r with
  | .r0 => { f with r0 := v }
  | .r1 => { f with r1 := v }
  | .r2 => { f with r2 := v }
  | .r3 => { f with r3 := v }
  | .r4 => { f with r4 := v }
  | .r5 => { f with r5 := v }
  | .r6 => { f with r6 := v }
  | .r7 => { f with r7 := v }

/-- `x[i]` (R7). -/
def State.reg (s : State) (r : Reg) : Word := s.regs.get r

/-- `x[i] <- v` (R7). -/
def State.setReg (s : State) (r : Reg) (v : Word) : State := { s with regs := s.regs.set r v }

/-- Writes the flags. -/
def State.setFlags (s : State) (f : Flags) : State := { s with flags := f }

/-- Writes storage. -/
def State.setMem (s : State) (m : Memory) : State := { s with mem := m }

/-- The instruction register receives the first word of the instruction about to be executed (R32). -/
def State.loadIr (s : State) (w0 : Word) : State := { s with ir := w0 }

/-- `out <- out ++ [e]` (R7, R35). -/
def State.emit (s : State) (e : OutEvent) : State := { s with out := s.out ++ [e] }

/-- The input stream loses what has been delivered (R36). -/
def State.setInput (s : State) (bs : List Byte) : State := { s with inp := bs }

/-- The host has more bytes for the input device (R222, R226, R246). No step does this; see log entry 12. -/
def State.provideInput (s : State) (bs : List Byte) : State := { s with inp := s.inp ++ bs }

/-- `k` free values have been drawn (R7). -/
def State.drawn (s : State) (k : Nat) : State := { s with draws := s.draws + k }

/-- `npc`: the address of the next sequential instruction, `length` words on, modulo 65536 (R24, R25, R26). -/
def nextPc (s : State) (length : Nat) : Word := s.pc + BitVec.ofNat 16 length

/-- An instruction completes: `pc` receives the address of the next one, and `cycle` advances by one (R25, R252). -/
def State.retire (s : State) (pc : Word) : State := { s with pc := pc, cycle := s.cycle + 1 }

/-- The machine stops: `halted` is set, and `pc` keeps the address of the HALT word (R33, R191). -/
def State.halt (s : State) : State := { s with halted := true, cycle := s.cycle + 1 }

end Sys2Proof.Machine
end

