-- ==== Sys2Proof/Machine/Devices.lean ====
section
/-! DEFINITION. The five memory-mapped devices (spec/60_exceptions.md R210 to R222) and the bytes their output stands for
(R216, R219). -/

namespace Sys2Proof.Machine

/-- What a data read does. -/
inductive ReadResult where
  /-- It gives a word and leaves this state. -/
  | value (w : Word) (s : State)
  /-- It has no step: the input device has nothing to deliver yet (R222). -/
  | blocked
  /-- It is a model fault. -/
  | fault (f : Fault)

/-- The timer, 0xF810: a draw, nominally the low 16 bits of `cycle`; `cycle` is not changed (R220, decision D23, log
entry 8). -/
def timerRead (s : State) : ReadResult := .value (Config.anyWord s.draws) (s.drawn 1)

/-- Character input, 0xF820: the next byte, extended with zeros (R221, decision D24, log entry 26); at the end of the
input CHAR_IN_EOF says what happens (R222). -/
def charIn (s : State) : ReadResult :=
  match s.inp with
  | b :: rest => .value (b.setWidth 16) (s.setInput rest)
  | [] =>
    match s.eof with
    | .block => .blocked
    | .word w => .value w s

/-- A data read in the I/O region (R211, R213). -/
def deviceRead (a : Word) (s : State) : ReadResult :=
  if a = 0xF810 then timerRead s
  else if a = 0xF820 then charIn s
  else .fault (.badMMIOAccess a .read)

/-- Character output, 0xF800: the low 8 bits (R214). -/
def charOut (v : Word) (s : State) : State := s.emit (.charOut (lowByte v))

/-- Integer output, 0xF801: the whole word (R215). -/
def intOut (v : Word) (s : State) : State := s.emit (.intOut v)

/-- The string device's scan from an address that lies `distance` words below the I/O region: the low bytes of the words
up to the terminator 0x0000 (R217), or the fault of R218. At distance 0 the scan is in the I/O region. -/
def scanString (m : Memory) : Nat → Word → Except Fault (List Byte)
  | 0, a => .error (.stringScanFault a)
  | distance + 1, a =>
    match m.readWord a with
    | none => .error (.uninitialisedRead a)
    | some w =>
      if w = 0x0000 then .ok []
      else if lowByte w = 0x00 then .error (.stringScanFault a)
      else
        match scanString m distance (a + 1) with
        | .error f => .error f
        | .ok bs => .ok (lowByte w :: bs)

/-- String output, 0xF802: the word written is the string's address (R217, R218). -/
def strOut (v : Word) (s : State) : Except Fault State :=
  match scanString s.mem (0xF800 - v.toNat) v with
  | .error f => .error f
  | .ok bs => .ok (s.emit (.strOut bs))

/-- A data write in the I/O region (R211, R213). It stores nothing (R58). -/
def deviceWrite (a v : Word) (s : State) : Except Fault State :=
  if a = 0xF800 then .ok (charOut v s)
  else if a = 0xF801 then .ok (intOut v s)
  else if a = 0xF802 then strOut v s
  else .error (.badMMIOAccess a .write)

/-- The decimal digits of a number, most significant first, as ASCII codes, at most `fuel` of them. -/
def decimalDigits : Nat → Nat → List Byte
  | 0, _ => []
  | fuel + 1, n =>
    if n < 10 then [BitVec.ofNat 8 (48 + n)]
    else decimalDigits fuel (n / 10) ++ [BitVec.ofNat 8 (48 + n % 10)]

/-- The default INT_OUT_FORMAT: the digits of the unsigned value, no leading zeros, no sign (R216, decision D21, log
entry 32). A 16-bit word has at most five. -/
def unsignedDecimal (v : Word) : List Byte := decimalDigits 5 v.toNat

/-- The bytes one event stands for, under an INT_OUT_FORMAT (R219). -/
def eventBytes (intFormat : Word → List Byte) : OutEvent → List Byte
  | .charOut b => [b]
  | .intOut v => intFormat v
  | .strOut bs => bs

/-- The bytes written to standard output: the events' bytes in trace order, nothing between them (R219). -/
def stdoutBytes (intFormat : Word → List Byte) (out : List OutEvent) : List Byte :=
  out.flatMap (eventBytes intFormat)

end Sys2Proof.Machine
end

