-- ==== Sys2Proof/Machine/Flags.lean ====
section
/-! DEFINITION. Every flag computation and branch condition of the spec (spec/10_state.md R27 to R30,
spec/41_arithmetic.md R121 to R123, R126, spec/44_branch_jump.md R160 to R167). -/

namespace Sys2Proof.Machine

/-- Z: the result is zero (R121). -/
def isZero (r : Word) : Bool := r == 0

/-- N: bit 15 of the result (R121). -/
def isNegative (r : Word) : Bool := r.msb

/-- C after an addition: the exact sum does not fit in 16 bits (R122). -/
def carryOfAdd (a b : Word) : Bool := decide (a.toNat + b.toNat > 65535)

/-- C after a subtraction: the borrow (R123, decision D9, log entry 17). -/
def borrowOfSub (a b : Word) : Bool := decide (a.toNat < b.toNat)

/-- C after a multiplication: the exact unsigned product does not fit in 16 bits (R126, decision D10, log entry 18). -/
def carryOfMul (a b : Word) : Bool := decide (a.toNat * b.toNat > 65535)

/-- `setZN(r)` (R7): Z and N are written from the result, C and V kept. -/
def setZN (f : Flags) (r : Word) : Flags := { f with z := isZero r, n := isNegative r }

/-- Z, N and C are written, V kept. -/
def setZNC (f : Flags) (r : Word) (c : Bool) : Flags := { f with z := isZero r, n := isNegative r, c := c }

/-- Z, N and C receive the next three draws, V is kept (R131). -/
def drawZNC (f : Flags) (draws : Nat) : Flags :=
  { f with z := Config.anyBit draws, n := Config.anyBit (draws + 1), c := Config.anyBit (draws + 2) }

/-- R160: Z = 1. -/
def condEq (f : Flags) : Bool := f.z

/-- R161: Z = 0. -/
def condNe (f : Flags) : Bool := !f.z

/-- R162: N = 0 and Z = 0. -/
def condGt (f : Flags) : Bool := !f.n && !f.z

/-- R163: N = 1. -/
def condLt (f : Flags) : Bool := f.n

/-- R164: N = 0. -/
def condGe (f : Flags) : Bool := !f.n

/-- R165: N = 1 or Z = 1. -/
def condLe (f : Flags) : Bool := f.n || f.z

/-- R166: C = 1. -/
def condCs (f : Flags) : Bool := f.c

/-- R167: C = 0. -/
def condCc (f : Flags) : Bool := !f.c

end Sys2Proof.Machine
end

