-- ==== Sys2Proof/Machine/Operands.lean ====
section
/-! DEFINITION. The operand forms (spec/30_encoding.md R82, R90; spec/45_stack_subroutine.md) and the results the
arithmetic, logical and shift instructions compute from their operands (spec/41_arithmetic.md, spec/42_logical.md,
spec/43_shift.md): exact arithmetic on the unsigned or signed values, then a reduction to 16 bits (R6, R120). -/

namespace Sys2Proof.Machine

/-- Direct addressing: the second word is the address (R82). -/
def directAddress (addr : Word) : Word := addr

/-- Indirect addressing: the register's whole content is the address (R90, R112, R114). -/
def indirectAddress (s : State) (r : Reg) : Word := s.reg r

/-- The address a push stores to: SP - 1, modulo 65536 (R61, R175, R177). -/
def pushAddress (s : State) : Word := s.reg .r7 - 1

/-- The address a pop reads: SP (R176, R178). -/
def popAddress (s : State) : Word := s.reg .r7

/-- ADD, ADDI (R124, R130). -/
def sumOf (a b : Word) : Word := BitVec.ofNat 16 (a.toNat + b.toNat)

/-- SUB, SUBI, CMP (R125, R132, R185). -/
def differenceOf (a b : Word) : Word := BitVec.ofInt 16 ((a.toNat : Int) - (b.toNat : Int))

/-- MUL: the lower 16 bits of the product (R126). -/
def productOf (a b : Word) : Word := BitVec.ofNat 16 (a.toNat * b.toNat)

/-- DIV by a divisor that is not zero: the unsigned quotient (R127, decision D11, log entry 19). -/
def quotientOf (a b : Word) : Word := BitVec.ofNat 16 (a.toNat / b.toNat)

/-- The shift amount: the low 4 bits of Rs (R150 to R152). -/
def shiftAmount (b : Word) : Nat := b.toNat % 16

/-- SHL: zeros enter at bit 0 (R150). -/
def shiftLeftOf (a b : Word) : Word := BitVec.ofNat 16 (a.toNat * 2 ^ shiftAmount b)

/-- SHR: zeros enter at bit 15 (R151). -/
def shiftRightOf (a b : Word) : Word := BitVec.ofNat 16 (a.toNat / 2 ^ shiftAmount b)

/-- SAR: the signed value divided, rounding toward minus infinity (R152). -/
def shiftArithOf (a b : Word) : Word := BitVec.ofInt 16 (a.toInt / ((2 ^ shiftAmount b : Nat) : Int))

end Sys2Proof.Machine
end

