-- ==== Sys2Proof/Machine/Ops.lean ====
section
/-! DEFINITION. The named operations over memory (spec/20_memory.md R58, R59) and the shared shapes of the meanings
(spec/10_state.md R25).

Taking an exception and returning from one have no operation here: the hardware has no exceptions, no saved registers and
no return instruction (spec/60_exceptions.md R200, R205, R206). A model fault is the outcome `fault`, which carries no
state: none is saved and none is changed (R202, R204). -/

namespace Sys2Proof.Machine

/-- `MemRead(a, 1)` (R58). -/
def memRead (a : Word) (s : State) : ReadResult :=
  if InStorage a then
    match s.mem.readWord a with
    | some w => .value w s
    | none => .fault (.uninitialisedRead a)
  else deviceRead a s

/-- `MemWrite(a, 1, v)` (R58). -/
def memWrite (a v : Word) (s : State) : Except Fault State :=
  if InStorage a then .ok (s.setMem (s.mem.writeWord a v)) else deviceWrite a v s

/-- `Fetch(a)` (R59). -/
def fetch (a : Word) (s : State) : Except Fault Word :=
  if InStorage a then
    match s.mem.readWord a with
    | some w => .ok w
    | none => .error (.uninitialisedRead a)
  else .error (.fetchFromMMIO a)

/-- The fetches and the decoding of R25, in the order of checks of R204: the first word and the instruction at `pc`. -/
def fetchInstr (s : State) : Except Fault (Word × Instr) :=
  match fetch s.pc s with
  | .error f => .error f
  | .ok w0 =>
    match decodeHead w0 with
    | .error _ => .error (.illegalInstruction s.pc w0)
    | .ok (.complete i) => .ok (w0, i)
    | .ok (.needsWord build) =>
      match fetch (nextPc s 1) s with
      | .error f => .error f
      | .ok w1 => .ok (w0, build w1)

/-- Reads a data word and goes on with it. A read that blocks leaves the state as it is: the load will be tried again
(R222, log entry 10). -/
def withLoaded (a : Word) (s : State) (k : Word → State → Result) : Result :=
  match memRead a s with
  | .value w t => k w t
  | .blocked => .next s
  | .fault f => .fault f

/-- Writes a data word and goes on. -/
def withStored (a v : Word) (s : State) (k : State → Result) : Result :=
  match memWrite a v s with
  | .ok t => k t
  | .error f => .fault f

/-- Writes a result to a register, Z and N from it; `length` is the instruction's length in words. -/
def finishZN (rd : Reg) (r : Word) (length : Nat) (s : State) : Result :=
  .next (((s.setReg rd r).setFlags (setZN s.flags r)).retire (nextPc s length))

/-- Writes a result to a register, Z and N from it, and C. -/
def finishZNC (rd : Reg) (r : Word) (c : Bool) (length : Nat) (s : State) : Result :=
  .next (((s.setReg rd r).setFlags (setZNC s.flags r c)).retire (nextPc s length))

/-- The one shape of the conditional branches: to the address if the condition holds, else past the address word. -/
def branchIf (taken : Bool) (addr : Word) (s : State) : Result :=
  .next (s.retire (if taken then addr else nextPc s 2))

end Sys2Proof.Machine
end

