-- ==== Sys2Proof/Machine/Arithmetic.lean ====
section
/-! DEFINITION. ADD, SUB, MUL, DIV, INC, DEC, ADDI, SUBI (spec/41_arithmetic.md). -/

namespace Sys2Proof.Machine

/-- R124 ADD Rd, Rs. -/
def execAdd (rd rs : Reg) (s : State) : Result :=
  finishZNC rd (sumOf (s.reg rd) (s.reg rs)) (carryOfAdd (s.reg rd) (s.reg rs)) 1 s

/-- R125 SUB Rd, Rs. -/
def execSub (rd rs : Reg) (s : State) : Result :=
  finishZNC rd (differenceOf (s.reg rd) (s.reg rs)) (borrowOfSub (s.reg rd) (s.reg rs)) 1 s

/-- R126 MUL Rd, Rs. -/
def execMul (rd rs : Reg) (s : State) : Result :=
  finishZNC rd (productOf (s.reg rd) (s.reg rs)) (carryOfMul (s.reg rd) (s.reg rs)) 1 s

/-- R131 DIV with a zero divisor: Rd is kept, Z, N and C are draws. -/
def divideByZero (s : State) : Result :=
  .next (((s.setFlags (drawZNC s.flags s.draws)).drawn 3).retire (nextPc s 1))

/-- R127 DIV Rd, Rs; R131 when the divisor is zero. -/
def execDiv (rd rs : Reg) (s : State) : Result :=
  if s.reg rs = 0 then divideByZero s else finishZN rd (quotientOf (s.reg rd) (s.reg rs)) 1 s

/-- R128 INC Rd. -/
def execInc (rd : Reg) (s : State) : Result := finishZN rd (sumOf (s.reg rd) 1) 1 s

/-- R129 DEC Rd. -/
def execDec (rd : Reg) (s : State) : Result := finishZN rd (differenceOf (s.reg rd) 1) 1 s

/-- R130 ADDI Rd, imm. -/
def execAddi (rd : Reg) (imm : Word) (s : State) : Result :=
  finishZNC rd (sumOf (s.reg rd) imm) (carryOfAdd (s.reg rd) imm) 2 s

/-- R132 SUBI Rd, imm. -/
def execSubi (rd : Reg) (imm : Word) (s : State) : Result :=
  finishZNC rd (differenceOf (s.reg rd) imm) (borrowOfSub (s.reg rd) imm) 2 s

end Sys2Proof.Machine
end

