-- ==== Sys2Proof/Machine/Branch.lean ====
section
/-! DEFINITION. The eight conditional branches and JMP (spec/44_branch_jump.md). Targets are absolute. -/

namespace Sys2Proof.Machine

/-- R160 BEQ addr. -/
def execBeq (addr : Word) (s : State) : Result := branchIf (condEq s.flags) addr s

/-- R161 BNE addr. -/
def execBne (addr : Word) (s : State) : Result := branchIf (condNe s.flags) addr s

/-- R162 BGT addr. -/
def execBgt (addr : Word) (s : State) : Result := branchIf (condGt s.flags) addr s

/-- R163 BLT addr. -/
def execBlt (addr : Word) (s : State) : Result := branchIf (condLt s.flags) addr s

/-- R164 BGE addr. -/
def execBge (addr : Word) (s : State) : Result := branchIf (condGe s.flags) addr s

/-- R165 BLE addr. -/
def execBle (addr : Word) (s : State) : Result := branchIf (condLe s.flags) addr s

/-- R166 BCS addr. -/
def execBcs (addr : Word) (s : State) : Result := branchIf (condCs s.flags) addr s

/-- R167 BCC addr. -/
def execBcc (addr : Word) (s : State) : Result := branchIf (condCc s.flags) addr s

/-- R168 JMP addr. -/
def execJmp (addr : Word) (s : State) : Result := .next (s.retire addr)

end Sys2Proof.Machine
end

