-- ==== Sys2Proof/Machine/Compare.lean ====
section
/-! DEFINITION. CMP (spec/46_compare.md). -/

namespace Sys2Proof.Machine

/-- R185 CMP Rd, Rs: the flags SUB would write, and no register. -/
def execCmp (rd rs : Reg) (s : State) : Result :=
  .next ((s.setFlags (setZNC s.flags (differenceOf (s.reg rd) (s.reg rs)) (borrowOfSub (s.reg rd) (s.reg rs)))).retire
    (nextPc s 1))

end Sys2Proof.Machine
end

