-- ==== Sys2Proof/Machine/DataTransfer.lean ====
section
/-! DEFINITION. LDI, LD, ST, MOV (spec/40_data_transfer.md). None writes a flag. -/

namespace Sys2Proof.Machine

/-- R110 LDI Rd, imm. -/
def execLdi (rd : Reg) (imm : Word) (s : State) : Result :=
  .next ((s.setReg rd imm).retire (nextPc s 2))

/-- R111 LD Rd, [addr]. -/
def execLdDirect (rd : Reg) (addr : Word) (s : State) : Result :=
  withLoaded (directAddress addr) s fun w t => .next ((t.setReg rd w).retire (nextPc s 2))

/-- R112 LD Rd, [Rs]. -/
def execLdIndirect (rd rs : Reg) (s : State) : Result :=
  withLoaded (indirectAddress s rs) s fun w t => .next ((t.setReg rd w).retire (nextPc s 1))

/-- R113 ST [addr], Rs. -/
def execStDirect (addr : Word) (rs : Reg) (s : State) : Result :=
  withStored (directAddress addr) (s.reg rs) s fun t => .next (t.retire (nextPc s 2))

/-- R114 ST [Rd], Rs. -/
def execStIndirect (rd rs : Reg) (s : State) : Result :=
  withStored (indirectAddress s rd) (s.reg rs) s fun t => .next (t.retire (nextPc s 1))

/-- R115 MOV Rd, Rs. -/
def execMov (rd rs : Reg) (s : State) : Result :=
  .next ((s.setReg rd (s.reg rs)).retire (nextPc s 1))

end Sys2Proof.Machine
end

