-- ==== Sys2Proof/Machine/Logical.lean ====
section
/-! DEFINITION. AND, OR, XOR, NOT (spec/42_logical.md). Z and N are written, C and V kept. -/

namespace Sys2Proof.Machine

/-- R140 AND Rd, Rs. -/
def execAnd (rd rs : Reg) (s : State) : Result := finishZN rd (s.reg rd &&& s.reg rs) 1 s

/-- R141 OR Rd, Rs. -/
def execOr (rd rs : Reg) (s : State) : Result := finishZN rd (s.reg rd ||| s.reg rs) 1 s

/-- R142 XOR Rd, Rs. -/
def execXor (rd rs : Reg) (s : State) : Result := finishZN rd (s.reg rd ^^^ s.reg rs) 1 s

/-- R143 NOT Rd. -/
def execNot (rd : Reg) (s : State) : Result := finishZN rd (~~~ s.reg rd) 1 s

end Sys2Proof.Machine
end

