-- ==== Sys2Proof/Machine/Shift.lean ====
section
/-! DEFINITION. SHL, SHR, SAR (spec/43_shift.md). Z and N are written, C and V kept. -/

namespace Sys2Proof.Machine

/-- R150 SHL Rd, Rs. -/
def execShl (rd rs : Reg) (s : State) : Result := finishZN rd (shiftLeftOf (s.reg rd) (s.reg rs)) 1 s

/-- R151 SHR Rd, Rs. -/
def execShr (rd rs : Reg) (s : State) : Result := finishZN rd (shiftRightOf (s.reg rd) (s.reg rs)) 1 s

/-- R152 SAR Rd, Rs. -/
def execSar (rd rs : Reg) (s : State) : Result := finishZN rd (shiftArithOf (s.reg rd) (s.reg rs)) 1 s

end Sys2Proof.Machine
end

