-- ==== Sys2Proof/Machine/Stack.lean ====
section
/-! DEFINITION. PUSH, POP, CALL, RET (spec/45_stack_subroutine.md). The stack pointer is R7; none writes a flag. -/

namespace Sys2Proof.Machine

/-- The first step of PUSH and CALL: `SP <- SP - 1`. -/
def State.decrementSp (s : State) : State := s.setReg .r7 (pushAddress s)

/-- The last step of POP and RET: `SP <- SP + 1`, modulo 65536. -/
def State.incrementSp (s : State) : State := s.setReg .r7 (s.reg .r7 + 1)

/-- R175 PUSH Rs: SP and Rs are read after the decrement (decision D29, log entry 22). -/
def execPush (rs : Reg) (s : State) : Result :=
  withStored (pushAddress s) (s.decrementSp.reg rs) s.decrementSp fun t => .next (t.retire (nextPc s 1))

/-- R176 POP Rd: SP is read for the increment after Rd is written (decision D29, log entry 22). -/
def execPop (rd : Reg) (s : State) : Result :=
  withLoaded (popAddress s) s fun w t => .next ((t.setReg rd w).incrementSp.retire (nextPc s 1))

/-- R177 CALL addr: the return address is the address after the address word (decision D7, log entry 15). -/
def execCall (addr : Word) (s : State) : Result :=
  withStored (pushAddress s) (nextPc s 2) s.decrementSp fun t => .next (t.retire addr)

/-- R178 RET. -/
def execRet (s : State) : Result :=
  withLoaded (popAddress s) s fun w t => .next (t.incrementSp.retire w)

end Sys2Proof.Machine
end

