-- ==== Sys2Proof/Machine/System.lean ====
section
/-! DEFINITION. NOP, HALT (spec/47_system.md). -/

namespace Sys2Proof.Machine

/-- R190 NOP. -/
def execNop (s : State) : Result := .next (s.retire (nextPc s 1))

/-- R191 HALT. -/
def execHalt (s : State) : Result := .next s.halt

end Sys2Proof.Machine
end

