-- ==== Sys2Proof/Machine/Dispatch.lean ====
section
/-! DEFINITION. The meaning of each instruction (spec/40_data_transfer.md to spec/47_system.md), one arm a constructor. -/

namespace Sys2Proof.Machine

/-- One instruction, already fetched and decoded, at the address `pc` holds (R25). -/
def exec (i : Instr) (s : State) : Host.Outcome State Fault Refusal :=
  match i with
    | .nop => Sys2Proof.Machine.execNop s
    | .ldi rd imm => Sys2Proof.Machine.execLdi rd imm s
    | .ldDirect rd addr => Sys2Proof.Machine.execLdDirect rd addr s
    | .ldIndirect rd rs => Sys2Proof.Machine.execLdIndirect rd rs s
    | .stDirect addr rs => Sys2Proof.Machine.execStDirect addr rs s
    | .stIndirect rd rs => Sys2Proof.Machine.execStIndirect rd rs s
    | .mov rd rs => Sys2Proof.Machine.execMov rd rs s
    | .add rd rs => Sys2Proof.Machine.execAdd rd rs s
    | .sub rd rs => Sys2Proof.Machine.execSub rd rs s
    | .mul rd rs => Sys2Proof.Machine.execMul rd rs s
    | .div rd rs => Sys2Proof.Machine.execDiv rd rs s
    | .inc rd => Sys2Proof.Machine.execInc rd s
    | .dec rd => Sys2Proof.Machine.execDec rd s
    | .addi rd imm => Sys2Proof.Machine.execAddi rd imm s
    | .subi rd imm => Sys2Proof.Machine.execSubi rd imm s
    | .and rd rs => Sys2Proof.Machine.execAnd rd rs s
    | .or rd rs => Sys2Proof.Machine.execOr rd rs s
    | .xor rd rs => Sys2Proof.Machine.execXor rd rs s
    | .not rd => Sys2Proof.Machine.execNot rd s
    | .shl rd rs => Sys2Proof.Machine.execShl rd rs s
    | .shr rd rs => Sys2Proof.Machine.execShr rd rs s
    | .sar rd rs => Sys2Proof.Machine.execSar rd rs s
    | .beq addr => Sys2Proof.Machine.execBeq addr s
    | .bne addr => Sys2Proof.Machine.execBne addr s
    | .bgt addr => Sys2Proof.Machine.execBgt addr s
    | .blt addr => Sys2Proof.Machine.execBlt addr s
    | .bge addr => Sys2Proof.Machine.execBge addr s
    | .ble addr => Sys2Proof.Machine.execBle addr s
    | .bcs addr => Sys2Proof.Machine.execBcs addr s
    | .bcc addr => Sys2Proof.Machine.execBcc addr s
    | .jmp addr => Sys2Proof.Machine.execJmp addr s
    | .push rs => Sys2Proof.Machine.execPush rs s
    | .pop rd => Sys2Proof.Machine.execPop rd s
    | .call addr => Sys2Proof.Machine.execCall addr s
    | .ret => Sys2Proof.Machine.execRet s
    | .cmp rd rs => Sys2Proof.Machine.execCmp rd rs s
    | .halt => Sys2Proof.Machine.execHalt s

end Sys2Proof.Machine
end

