-- ==== Sys2Proof/Machine/Step.lean ====
section
/-! DEFINITION. One step of the machine (spec/10_state.md R25). -/

namespace Sys2Proof.Machine

/-- R25. A halted machine has no step: it stays as it is (R33, R191, log entry 9). Otherwise the instruction at `pc` is
fetched and decoded, its first word stands in the instruction register while it is executed (R32), and it is executed.
The `pc` and `cycle` of R25's last two lines are written by the instruction's own meaning as it completes. -/
def step (s : State) : Host.Outcome State Fault Refusal :=
  if s.halted then .next s
  else
    match fetchInstr s with
    | .error f => .fault f
    | .ok (w0, i) => exec i (s.loadIr w0)

/-- The state with an instruction's bits (numbered as spec/opcode_table.json numbers them, every bit above `nbits` zero)
stored at `pc`, two words, and the machine not halted: the next step fetches and runs exactly it. This stands for the
host's loading of a program (R243, log entry 11). -/
def State.withFetchWord (s : State) (nbits w : Nat) : State :=
  { s with
    mem := (s.mem.place s.pc (tableWords nbits w).1).place (nextPc s 1) (tableWords nbits w).2
    halted := false }

end Sys2Proof.Machine
end

