-- ==== Sys2Proof/Machine/Assembler.lean ====
section
/-! DEFINITION. The assembler's syntax and directives (spec/30_encoding.md R97 to R103), as a function from source text to a
program image. Where the source says nothing (lowercase mnemonics, escapes, expressions, a default origin, literals out of
range; decision D31) the function gives no image. DESIGN CHOICES: log entries 33 (what has no image), 38 (label names), 39
(the text of a line) and 40 (labels and origins). -/

namespace Sys2Proof.Machine

/-- The symbols of a line (R97, R99). -/
inductive Token where
  | name (cs : List Char)
  | number (n : Int)
  | text (cs : List Char)
  | directive (cs : List Char)
  | comma
  | colon
  | openBracket
  | closeBracket
  deriving DecidableEq, Repr

/-- The characters names and numbers are made of: ASCII letters, digits and underscore. The spec does not say what a label
name is made of; DESIGN CHOICE, log entry 38. -/
def isNameChar (c : Char) : Bool := c.isAlphanum || c == '_'

/-- The characters a string or a character literal may hold: printable ASCII, and no backslash, since the source defines
no escapes (R101). -/
def isPlainChar (c : Char) : Bool := 32 ≤ c.toNat && c.toNat ≤ 126 && c != '\\'

/-- The value of a hexadecimal digit. R99 shows capitals; DESIGN CHOICE, log entry 39: either case. -/
def hexDigitValue (c : Char) : Option Nat :=
  if c.isDigit then some (c.toNat - 48)
  else if 97 ≤ c.toNat && c.toNat ≤ 102 then some (c.toNat - 87)
  else if 65 ≤ c.toNat && c.toNat ≤ 70 then some (c.toNat - 55)
  else none

/-- The value of a digit sequence in a base, from the value of the digits before it. -/
def digitsValue (base : Nat) : Nat → List Char → Option Nat
  | acc, [] => some acc
  | acc, c :: cs =>
    match hexDigitValue c with
    | some d => if d < base then digitsValue base (acc * base + d) cs else none
    | none => none

/-- A literal without its sign: hexadecimal with `0x`, else decimal (R99). -/
def literalValue : List Char → Option Nat
  | '0' :: 'x' :: c :: cs => digitsValue 16 0 (c :: cs)
  | c :: cs => digitsValue 10 0 (c :: cs)
  | [] => none

/-- The symbols of a line up to its comment (R97); `fuel` exceeds the number of characters. DESIGN CHOICE, log entry 39: a
`;` inside a string or a character literal (`';'`) belongs to it and starts no comment. A name does not begin with a digit
(log entry 38). -/
def tokensOf : Nat → List Char → Option (List Token)
  | 0, _ => none
  | _ + 1, [] => some []
  | fuel + 1, c :: cs =>
    if c == ' ' || c == '\t' || c == '\r' then tokensOf fuel cs
    else if c == ';' then some []
    else if c == ',' then (tokensOf fuel cs).map (.comma :: ·)
    else if c == ':' then (tokensOf fuel cs).map (.colon :: ·)
    else if c == '[' then (tokensOf fuel cs).map (.openBracket :: ·)
    else if c == ']' then (tokensOf fuel cs).map (.closeBracket :: ·)
    else if c == '"' then
      match cs.dropWhile (· != '"') with
      | _ :: rest =>
        if (cs.takeWhile (· != '"')).all isPlainChar then
          (tokensOf fuel rest).map (.text (cs.takeWhile (· != '"')) :: ·)
        else none
      | [] => none
    else if c == '\'' then
      match cs with
      | ch :: close :: rest =>
        if close == '\'' && ch != '\'' && isPlainChar ch then
          (tokensOf fuel rest).map (.number ch.toNat :: ·)
        else none
      | _ => none
    else if c == '.' then
      (tokensOf fuel (cs.dropWhile isNameChar)).map (.directive (cs.takeWhile isNameChar) :: ·)
    else if c == '-' then
      match digitsValue 10 0 (cs.takeWhile isNameChar) with
      | some n =>
        if cs.takeWhile isNameChar == [] then none
        else (tokensOf fuel (cs.dropWhile isNameChar)).map (.number (-(n : Int)) :: ·)
      | none => none
    else if c.isDigit then
      match literalValue (c :: cs.takeWhile isNameChar) with
      | some n => (tokensOf fuel (cs.dropWhile isNameChar)).map (.number (n : Int) :: ·)
      | none => none
    else if isNameChar c then
      (tokensOf fuel (cs.dropWhile isNameChar)).map (.name (c :: cs.takeWhile isNameChar) :: ·)
    else none

/-- R98: `R0` to `R7`, `r0` to `r7`, and `SP` for R7. R98 leaves open whether `sp` is accepted; DESIGN CHOICE, log entry
33: it names no register, and by `mayBeLabel` no label either. -/
def registerNamed : List Char → Option Reg
  | [p, d] =>
    if p == 'S' && d == 'P' then some .r7
    else if (p == 'R' || p == 'r') && d.isDigit && d.toNat ≤ 55 then
      some (Reg.ofField (BitVec.ofNat 3 (d.toNat - 48)))
    else none
  | _ => none

/-- A literal or a label where a word is asked for (R99). -/
inductive Value where
  | literal (n : Int)
  | label (name : List Char)
  deriving DecidableEq, Repr

/-- The operands of a statement (R100). -/
inductive Operand where
  | reg (r : Reg)
  | value (v : Value)
  | memReg (r : Reg)
  | memValue (v : Value)
  deriving DecidableEq, Repr

/-- What a line places in memory, or where (R100, R101). A label may stand for the address and the values of the directives
too (R99). -/
inductive Item where
  | instruction (mnemonic : List Char) (operands : List Operand)
  | origin (address : Value)
  | words (values : List Value)
  | string (cs : List Char)
  deriving DecidableEq, Repr

/-- One line of source: an optional label, an optional item (R97). -/
structure Line where
  label : Option (List Char)
  item : Option Item
  deriving DecidableEq, Repr

/-- One operand and the symbols after it. -/
def parseOperand : List Token → Option (Operand × List Token)
  | .name cs :: ts =>
    match registerNamed cs with
    | some r => some (.reg r, ts)
    | none => some (.value (.label cs), ts)
  | .number n :: ts => some (.value (.literal n), ts)
  | .openBracket :: .name cs :: .closeBracket :: ts =>
    match registerNamed cs with
    | some r => some (.memReg r, ts)
    | none => some (.memValue (.label cs), ts)
  | .openBracket :: .number n :: .closeBracket :: ts => some (.memValue (.literal n), ts)
  | _ => none

/-- Operands separated by commas (R97); `fuel` is at least the number of symbols. -/
def parseOperands : Nat → List Token → Option (List Operand)
  | 0, _ => none
  | fuel + 1, ts =>
    match parseOperand ts with
    | some (o, []) => some [o]
    | some (o, .comma :: rest) => (parseOperands fuel rest).map (o :: ·)
    | _ => none

/-- An operand that is a literal or a label. -/
def valueOperand : Operand → Option Value
  | .value v => some v
  | _ => none

/-- What stands on a line after its label. -/
def parseItem : List Token → Option (Option Item)
  | [] => some none
  | [.name mnemonic] => some (some (.instruction mnemonic []))
  | .name mnemonic :: ts => (parseOperands ts.length ts).map fun os => some (.instruction mnemonic os)
  | [.directive d, .text cs] =>
    if d == "STRING".toList || d == "ASCIIZ".toList then some (some (.string cs)) else none
  | .directive d :: ts =>
    match (parseOperands ts.length ts).bind (·.mapM valueOperand) with
    | none => none
    | some vs =>
      if d == "WORD".toList then some (some (.words vs))
      else if d == "ORG".toList then
        match vs with
        | [v] => some (some (.origin v))
        | _ => none
      else none
  | _ => none

/-- DESIGN CHOICE, log entries 33 and 38: a register's name is no label, nor is `sp`, which R98 leaves open; the name of a
mnemonic may be one. -/
def mayBeLabel (name : List Char) : Bool := (registerNamed name).isNone && name != "sp".toList

/-- One line (R97). -/
def parseLine (cs : List Char) : Option Line :=
  match tokensOf (cs.length + 1) cs with
  | none => none
  | some (.name l :: .colon :: ts) =>
    if mayBeLabel l then (parseItem ts).map fun item => ⟨some l, item⟩ else none
  | some ts => (parseItem ts).map fun item => ⟨none, item⟩

/-- The lines of a text. -/
def linesOf : List Char → List (List Char)
  | [] => [[]]
  | c :: cs =>
    match linesOf cs with
    | l :: ls => if c == '\n' then [] :: l :: ls else (c :: l) :: ls
    | [] => [[c]]

/-- A literal as one word (R82, R99); none outside -32768 to 65535, where the source says nothing. -/
def literalWord (n : Int) : Option Word :=
  if -32768 ≤ n ∧ n ≤ 65535 then some (BitVec.ofInt 16 n) else none

/-- A value's word, from the addresses of the labels (R99). DESIGN CHOICE, log entry 38: the names of labels are case
sensitive. -/
def valueWord (labels : List (List Char × Word)) : Value → Option Word
  | .literal n => literalWord n
  | .label name => labels.lookup name

/-- The operand shapes of R100. -/
inductive OperandShape where
  | none (i : Instr)
  | oneReg (build : Reg → Instr)
  | twoRegs (build : Reg → Reg → Instr)
  | regValue (build : Reg → Word → Instr)
  | value (build : Word → Instr)
  | load
  | store

/-- The mnemonics that take registers only, or nothing. -/
def registerMnemonics : List (String × OperandShape) :=
  [("NOP", .none .nop), ("RET", .none .ret), ("HALT", .none .halt), ("MOV", .twoRegs .mov),
   ("ADD", .twoRegs .add), ("SUB", .twoRegs .sub), ("MUL", .twoRegs .mul), ("DIV", .twoRegs .div),
   ("AND", .twoRegs .and), ("OR", .twoRegs .or), ("XOR", .twoRegs .xor), ("SHL", .twoRegs .shl),
   ("SHR", .twoRegs .shr), ("SAR", .twoRegs .sar), ("CMP", .twoRegs .cmp), ("INC", .oneReg .inc),
   ("DEC", .oneReg .dec), ("NOT", .oneReg .not), ("POP", .oneReg .pop), ("PUSH", .oneReg .push)]

/-- The mnemonics that take a value or a memory operand. -/
def valueMnemonics : List (String × OperandShape) :=
  [("LDI", .regValue .ldi), ("ADDI", .regValue .addi), ("SUBI", .regValue .subi), ("LD", .load), ("ST", .store),
   ("BEQ", .value .beq), ("BNE", .value .bne), ("BGT", .value .bgt), ("BLT", .value .blt), ("BGE", .value .bge),
   ("BLE", .value .ble), ("BCS", .value .bcs), ("BCC", .value .bcc), ("JMP", .value .jmp), ("CALL", .value .call)]

/-- The operand shape of a mnemonic (R100, R103: there are no others). -/
def shapeOf (mnemonic : List Char) : Option OperandShape :=
  ((registerMnemonics ++ valueMnemonics).find? fun entry => entry.1.toList == mnemonic).map (·.2)

/-- The instruction a mnemonic and its operands select (R100): what is inside the brackets tells direct from indirect. -/
def buildInstr (labels : List (List Char × Word)) : OperandShape → List Operand → Option Instr
  | .none i, [] => some i
  | .oneReg build, [.reg r] => some (build r)
  | .twoRegs build, [.reg rd, .reg rs] => some (build rd rs)
  | .regValue build, [.reg rd, .value v] => (valueWord labels v).map (build rd)
  | .value build, [.value v] => (valueWord labels v).map build
  | .load, [.reg rd, .memValue v] => (valueWord labels v).map (.ldDirect rd)
  | .load, [.reg rd, .memReg rs] => some (.ldIndirect rd rs)
  | .store, [.memValue v, .reg rs] => (valueWord labels v).map fun a => .stDirect a rs
  | .store, [.memReg rd, .reg rs] => some (.stIndirect rd rs)
  | _, _ => none

/-- The words an item places (R85, R101): an instruction's, a directive's, or for `.ORG` none. -/
def itemWords (labels : List (List Char × Word)) : Item → Option (List Word)
  | .instruction mnemonic operands =>
    match shapeOf mnemonic with
    | some shape => (buildInstr labels shape operands).map encodeWords
    | none => none
  | .origin v => (valueWord labels v).map fun _ => []
  | .words vs => vs.mapM (valueWord labels)
  | .string cs => some (cs.map (fun c => BitVec.ofNat 16 c.toNat) ++ [0x0000])

/-- The words of a statement (R100). -/
def statementWords (labels : List (List Char × Word)) (mnemonic : String) (operands : List Operand) :
    Option (List Word) := itemWords labels (.instruction mnemonic.toList operands)

/-- The label a value is. -/
def labelOf : Value → Option (List Char)
  | .label name => some name
  | .literal _ => none

/-- The labels an item names. -/
def labelsIn : Item → List (List Char)
  | .instruction _ operands =>
    operands.filterMap fun
      | .value v => labelOf v
      | .memValue v => labelOf v
      | _ => none
  | .origin v => (labelOf v).toList
  | .words vs => vs.filterMap labelOf
  | .string _ => []

/-- How many words an item places (R83, R102). It does not depend on what its labels stand for. -/
def itemSize (item : Item) : Option Nat :=
  (itemWords ((labelsIn item).map fun name => (name, 0)) item).map List.length

/-- The item places a word. -/
def emits (item : Item) : Bool :=
  match itemSize item with
  | some (_ + 1) => true
  | _ => false

/-- Where the line after an item places its words, if that is known (R101, R102): at the address of an `.ORG`, else past the
item's own words. -/
def positionAfter (labels : List (List Char × Word)) (at? : Option Nat) : Item → Option Nat
  | .origin v => (valueWord labels v).map BitVec.toNat
  | item =>
    match at?, itemSize item with
    | some a, some size => some (a + size)
    | _, _ => none

/-- A line's label with the address it names, if that is known. -/
def labelled (line : Line) (address : Option Nat) : List (List Char × Word) :=
  match line.label, address with
  | some name, some a => [(name, BitVec.ofNat 16 a)]
  | _, _ => []

/-- The labels of the lines from a position on, where `known` gives those that an `.ORG` names; and the address of the next
word emitted, which is what a label names (R97), whether or not an `.ORG` stands between. DESIGN CHOICE, log entry 40:
where no word follows, a label names the address at which one would be placed. -/
def labelsFrom (known : List (List Char × Word)) :
    Option Nat → List Line → Option Nat × List (List Char × Word)
  | at?, [] => (at?, [])
  | at?, line :: rest =>
    match line.item with
    | none =>
      match labelsFrom known at? rest with
      | (next, labels) => (next, labelled line next ++ labels)
    | some item =>
      match labelsFrom known (positionAfter known at? item) rest with
      | (below, labels) =>
        let next := if emits item then at? else below
        (next, labelled line next ++ labels)

/-- The labels found in so many passes. A pass resolves the `.ORG` lines whose label the passes before it have found. -/
def labelPasses (lines : List Line) : Nat → List (List Char × Word)
  | 0 => []
  | passes + 1 => (labelsFrom (labelPasses lines passes) none lines).2

/-- How many lines are `.ORG` lines. -/
def originCount (lines : List Line) : Nat :=
  lines.countP fun line =>
    match line.item with
    | some (.origin _) => true
    | _ => false

/-- The addresses of a program's labels: each pass but the last resolves another `.ORG`. -/
def labelTable (lines : List Line) : List (List Char × Word) := labelPasses lines (originCount lines + 1)

/-- The words of an item where they stand, within storage (R102, R243). -/
def placeItem (labels : List (List Char × Word)) (at? : Option Nat) (item : Item) : Option Image :=
  match itemWords labels item, at? with
  | some [], _ => some []
  | some ws, some a => if a + ws.length ≤ 0xF800 then some (imageAt (BitVec.ofNat 16 a) ws) else none
  | _, _ => none

/-- The words of the lines from a position on, at consecutive addresses from the last `.ORG` on (R102). -/
def placeLines (labels : List (List Char × Word)) : Option Nat → List Line → Option Image
  | _, [] => some []
  | at?, line :: rest =>
    match line.item with
    | none => placeLines labels at? rest
    | some item =>
      match placeItem labels at? item, placeLines labels (positionAfter labels at? item) rest with
      | some cells, some image => some (cells ++ image)
      | _, _ => none

/-- The image of a program (R102). It has one where every label is defined once, names the address at which the same labels
place the next word, and no two words stand at one address; else none (log entries 33 and 40). -/
def assembleLines (lines : List Line) : Option Image :=
  let labels := labelTable lines
  if (lines.filterMap (·.label)).Nodup ∧ (labelsFrom labels none lines).2 = labels then
    match placeLines labels none lines with
    | none => none
    | some image => if (image.map (·.1)).Nodup then some image else none
  else none

/-- The assembler: source text to image. -/
def assemble (source : List Char) : Option Image :=
  match (linesOf source).mapM parseLine with
  | none => none
  | some lines => assembleLines lines

end Sys2Proof.Machine
end

