-- ==== Sys2Proof/Machine/Boot.lean ====
section
/-! DEFINITION. The reset state of spec/10_state.md R38 for every choice of what R38 leaves unspecified, with the image and
the input stream the host supplies (spec/00_scope.md R4, spec/70_reset_and_hazards.md R240 to R247). -/

namespace Sys2Proof.Machine

/-- What a run begins from: the parameters of R4, and one draw for each item R38 leaves unspecified (R39: "an arbitrary
fixed value drawn at reset"). -/
structure Boot where
  /-- R0 to R6; `r7` is not used. -/
  regs : RegFile
  /-- Z, N, C and V. -/
  flags : Flags
  /-- The instruction register. -/
  ir : Word
  /-- The cycle counter. -/
  cycle : Nat
  /-- IMAGE (R4, R243). -/
  image : Image
  /-- INPUT (R4, R36). -/
  input : List Byte
  /-- CHAR_IN_EOF (R4, R222). -/
  eof : CharInEof
  /-- Where in the sequence of free values the run begins (log entry 7). -/
  draws : Nat
  deriving DecidableEq, Repr

/-- The state a run begins in (R38, R240, R241, R243). -/
def State.boot (b : Boot) : State where
  regs := { b.regs with r7 := resetSp }
  pc := resetPc
  ir := b.ir
  flags := b.flags
  mem := Memory.ofImage b.image
  halted := false
  cycle := b.cycle
  out := []
  inp := b.input
  eof := b.eof
  draws := b.draws

/-- The choices of ResetValues.lean, nothing loaded and no input. -/
def Boot.plain : Boot where
  regs := State.reset.regs
  flags := State.reset.flags
  ir := resetIr
  cycle := resetCycle
  image := []
  input := []
  eof := .block
  draws := 0

/-- A program and its input, the rest as in `Boot.plain`. -/
def Boot.program (image : Image) (input : List Byte) : Boot :=
  { Boot.plain with image := image, input := input }

end Sys2Proof.Machine
end

