-- ==== Sys2Proof/Safety.lean ====
section
/-! DEFINITION. What a run is and when it is safe (spec/60_exceptions.md R202, spec/70_reset_and_hazards.md R245), and the
terms the statements use: what each instruction writes. -/

namespace Sys2Proof.Machine

/-- The state a step or an instruction leaves, if it leaves one. -/
def nextOf : Result → Option State
  | .next s => some s
  | .fault _ => none
  | .refused _ => none

/-- The model fault a step or an instruction ends in, if it ends in one. -/
def faultOf : Result → Option Fault
  | .next _ => none
  | .fault f => some f
  | .refused _ => none

/-- What every state of a run satisfies: storage is in its canonical form, with nothing in the I/O region (R37, R58). -/
abbrev State.Inv (s : State) : Prop := s.mem.wf

/-- The states of the runs that begin with `b` (R245). -/
inductive Reachable (b : Boot) : State → Prop where
  | start : Reachable b (State.boot b)
  | onward {s t : State} : Reachable b s → step s = .next t → Reachable b t

/-- `k` steps raise no model fault. -/
def faultFree (k : Nat) (s : State) : Prop := ∃ t, core.run k s = .next t

/-- A run has ended normally: HALT has been executed (R191, R245). -/
def endedNormally (s : State) : Prop := s.halted = true

/-- The general registers an instruction writes: its destination, and R7 for the stack instructions (R22, R90). -/
def destRegs : Instr → List Reg
  | .nop => []
  | .ldi rd _ => [rd]
  | .ldDirect rd _ => [rd]
  | .ldIndirect rd _ => [rd]
  | .stDirect _ _ => []
  | .stIndirect _ _ => []
  | .mov rd _ => [rd]
  | .add rd _ => [rd]
  | .sub rd _ => [rd]
  | .mul rd _ => [rd]
  | .div rd _ => [rd]
  | .inc rd => [rd]
  | .dec rd => [rd]
  | .addi rd _ => [rd]
  | .subi rd _ => [rd]
  | .and rd _ => [rd]
  | .or rd _ => [rd]
  | .xor rd _ => [rd]
  | .not rd => [rd]
  | .shl rd _ => [rd]
  | .shr rd _ => [rd]
  | .sar rd _ => [rd]
  | .beq _ => []
  | .bne _ => []
  | .bgt _ => []
  | .blt _ => []
  | .bge _ => []
  | .ble _ => []
  | .bcs _ => []
  | .bcc _ => []
  | .jmp _ => []
  | .push _ => [.r7]
  | .pop rd => [rd, .r7]
  | .call _ => [.r7]
  | .ret => [.r7]
  | .cmp _ _ => []
  | .halt => []

/-- The address an instruction makes its data write at (R51), as its meaning computes it. -/
def storeTarget : Instr → State → Option Word
  | .stDirect addr _, _ => some (directAddress addr)
  | .stIndirect rd _, s => some (indirectAddress s rd)
  | .push _, s => some (pushAddress s)
  | .call _, s => some (pushAddress s)
  | _, _ => none

/-- The address an instruction makes its data read at (R51), as its meaning computes it. -/
def loadSource : Instr → State → Option Word
  | .ldDirect _ addr, _ => some (directAddress addr)
  | .ldIndirect _ rs, s => some (indirectAddress s rs)
  | .pop _, s => some (popAddress s)
  | .ret, s => some (popAddress s)
  | _, _ => none

/-- The word an instruction's data write stores, as its meaning computes it: for PUSH after the decrement of SP (R175). -/
def storeValue : Instr → State → Word
  | .stDirect _ rs, s => s.reg rs
  | .stIndirect _ rs, s => s.reg rs
  | .push rs, s => s.decrementSp.reg rs
  | .call _, s => nextPc s 2
  | _, _ => 0

/-- The conditional branches, the only instructions that read a flag (R30). -/
def isBranch : Instr → Bool
  | .beq _ => true
  | .bne _ => true
  | .bgt _ => true
  | .blt _ => true
  | .bge _ => true
  | .ble _ => true
  | .bcs _ => true
  | .bcc _ => true
  | _ => false

/-- The rows of R28 with "w" under Z and N. -/
def writesZN : Instr → Bool
  | .add _ _ => true
  | .sub _ _ => true
  | .mul _ _ => true
  | .div _ _ => true
  | .inc _ => true
  | .dec _ => true
  | .addi _ _ => true
  | .subi _ _ => true
  | .and _ _ => true
  | .or _ _ => true
  | .xor _ _ => true
  | .not _ => true
  | .shl _ _ => true
  | .shr _ _ => true
  | .sar _ _ => true
  | .cmp _ _ => true
  | _ => false

/-- The rows of R28 with "w" under C; and DIV when its divisor is zero, the exception to its row (R131). -/
def writesC : Instr → State → Bool
  | .add _ _, _ => true
  | .sub _ _, _ => true
  | .mul _ _, _ => true
  | .div _ rs, s => s.reg rs == 0
  | .addi _ _, _ => true
  | .subi _ _, _ => true
  | .cmp _ _, _ => true
  | _, _ => false

/-- Storage, the devices, the instruction register and `halted` are as before: all but the general registers, the flags,
`pc` and `cycle`. -/
def restKept (s t : State) : Prop :=
  t.ir = s.ir ∧ t.mem = s.mem ∧ t.halted = s.halted ∧ t.out = s.out ∧ t.inp = s.inp ∧ t.eof = s.eof ∧ t.draws = s.draws

/-- Every general register but one is as before. -/
def othersKept (rd : Reg) (s t : State) : Prop := ∀ r, r ≠ rd → t.reg r = s.reg r

/-- `pc <- npc` for an instruction of that many words (R25), and one more cycle (R252). -/
def advanced (length : Nat) (s t : State) : Prop :=
  t.pc = s.pc + BitVec.ofNat 16 length ∧ t.cycle = s.cycle + 1

/-- Z and N are those of the result (R121). -/
def flagsOfResult (r : Word) (t : State) : Prop :=
  (t.flags.z = true ↔ r.toNat = 0) ∧ (t.flags.n = true ↔ r.toNat ≥ 32768)

/-- What an arithmetic, logical or shift instruction does beside its result and C: Z and N from the result, V kept, only
Rd of the registers written, the next instruction next. -/
def computed (rd : Reg) (length : Nat) (s t : State) : Prop :=
  flagsOfResult (t.reg rd) t ∧ t.flags.v = s.flags.v ∧ othersKept rd s t ∧ restKept s t ∧ advanced length s t

/-- R85: a word with a register number in the Rd field. -/
def withRd (base : Word) (rd : Reg) : Word := base ||| (rd.field.setWidth 16 <<< 9)

/-- R85: a word with a register number in the Rs field. -/
def withRs (base : Word) (rs : Reg) : Word := base ||| (rs.field.setWidth 16 <<< 6)

/-- Every byte of storage but the two of the word at `a` is as before. -/
def bytesKeptBut (a : Word) (s t : State) : Prop :=
  ∀ key, key ≠ lowKey a → key ≠ highKey a → t.mem.readCell key = s.mem.readCell key

/-- What a data read at `a` gives the instruction that makes it, for every address: `deliver w u t` says that `t` is the
state the instruction leaves when the read gives `w` and leaves the state `u` (R58, R211, R213, R220 to R222). -/
def loads (i : Instr) (a : Word) (s : State) (deliver : Word → State → State → Prop) : Prop :=
  (∀ w, InStorage a → s.mem.readWord a = some w → ∃ t, exec i s = .next t ∧ deliver w s t) ∧
  (InStorage a → s.mem.readWord a = none → exec i s = .fault (.uninitialisedRead a)) ∧
  (a = 0xF810 → ∃ t, exec i s = .next t ∧ deliver (Config.anyWord s.draws) (s.drawn 1) t) ∧
  (∀ b rest, a = 0xF820 → s.inp = b :: rest → ∃ t, exec i s = .next t ∧ deliver (b.setWidth 16) (s.setInput rest) t) ∧
  (∀ w, a = 0xF820 → s.inp = [] → s.eof = .word w → ∃ t, exec i s = .next t ∧ deliver w s t) ∧
  (a = 0xF820 → s.inp = [] → s.eof = .block → exec i s = .next s) ∧
  (¬InStorage a → a ≠ 0xF810 → a ≠ 0xF820 → exec i s = .fault (.badMMIOAccess a .read))

/-- What a data write of `v` at `a` does for the instruction that makes it, for every address; what the string device
(0xF802) emits, and when it faults, stands in the statements on it: `leave t` says what else holds of the state `t` it leaves (R58, R211, R213 to R215). -/
def stores (i : Instr) (a v : Word) (s : State) (leave : State → Prop) : Prop :=
  (InStorage a → ∃ t, exec i s = .next t ∧ leave t ∧ t.mem.readWord a = some v ∧ bytesKeptBut a s t ∧ t.out = s.out) ∧
  (a = 0xF800 → ∃ t, exec i s = .next t ∧ leave t ∧ t.mem = s.mem ∧ t.out = s.out ++ [.charOut (v.setWidth 8)]) ∧
  (a = 0xF801 → ∃ t, exec i s = .next t ∧ leave t ∧ t.mem = s.mem ∧ t.out = s.out ++ [.intOut v]) ∧
  (∀ t, a = 0xF802 → exec i s = .next t → leave t ∧ t.mem = s.mem) ∧
  (¬InStorage a → a ≠ 0xF800 → a ≠ 0xF801 → a ≠ 0xF802 → exec i s = .fault (.badMMIOAccess a .write))

/-- The instruction completes with `pc` at this address. -/
def goesTo (i : Instr) (s : State) (a : Word) : Prop := ∃ t, exec i s = .next t ∧ t.pc = a

/-- The input stream, the instruction register, `halted` and the model's own fields are as before. -/
def insideKept (s t : State) : Prop :=
  t.ir = s.ir ∧ t.halted = s.halted ∧ t.inp = s.inp ∧ t.eof = s.eof ∧ t.draws = s.draws

/-- `ws` stand in memory at consecutive addresses from `a` on, all below the I/O region. -/
def holdsWords (m : Memory) : Word → List Word → Prop
  | _, [] => True
  | a, w :: ws => InStorage a ∧ m.readWord a = some w ∧ holdsWords m (a + 1) ws

/-- `ws` stand in memory at consecutive addresses from `a` on, and each has a character in its low byte (R217). -/
def holdsText (m : Memory) (a : Word) (ws : List Word) : Prop := holdsWords m a ws ∧ ∀ w ∈ ws, lowByte w ≠ 0

end Sys2Proof.Machine
end

