-- ==== Sys2Proof/Certificates/Slice0/Obligations.lean ====
section
/-! DEFINITION. The statements about this model, for the provers. -/

open Sys2Proof Sys2Proof.Machine

/-! ### Encoding and decoding -/

/-- 95_test_vectors.md part 1 and part 2.9 (derived): words written out there decode to the instructions they stand for,
one for each family, and three illegal ones to none. -/
def Obligations.SampleWordsDecode : Prop :=
  decodeTableWord 16 0x0000 = some .nop ∧
  decodeTableWord 32 0x12341000 = some (.ldi .r0 0x1234) ∧
  decodeTableWord 16 0x14C2 = some (.ldIndirect .r2 .r3) ∧
  decodeTableWord 32 0x30002100 = some (.stDirect 0x3000 .r4) ∧
  decodeTableWord 16 0x2B81 = some (.stIndirect .r5 .r6) ∧
  decodeTableWord 16 0x4DC3 = some (.div .r6 .r7) ∧
  decodeTableWord 16 0x5C03 = some (.not .r6) ∧
  decodeTableWord 16 0x6942 = some (.sar .r4 .r5) ∧
  decodeTableWord 32 0x00047003 = some (.blt 0x0004) ∧
  decodeTableWord 16 0x9201 = some (.pop .r1) ∧
  decodeTableWord 32 0x0009A000 = some (.call 0x0009) ∧
  decodeTableWord 16 0xC040 = some (.cmp .r0 .r1) ∧
  decodeTableWord 16 0xF000 = some .halt ∧
  decodeTableWord 16 0x4044 = none ∧ decodeTableWord 16 0x4008 = none ∧ decodeTableWord 16 0xD000 = none

/-- 30_encoding.md sections 1 and 2: decoding the bytes of an instruction gives the instruction back, every operand
included, and leaves the bytes after it. -/
def Obligations.DecodeOfEncodeIsTheInstruction : Prop :=
  ∀ (i : Instr) (rest : List Byte), decodeBytes (encodeBytes i ++ rest) = .ok (i, rest)

/-- 30_encoding.md sections 1 to 3: bytes that decode begin with the canonical encoding of what they decode to, so an
instruction has one encoding and every other word is illegal (R88, and R92 by the spec's decision D14, log entry 23). -/
def Obligations.DecodedBytesAreTheEncoding : Prop :=
  ∀ (bytes : List Byte) (i : Instr) (rest : List Byte),
    decodeBytes bytes = .ok (i, rest) → bytes = encodeBytes i ++ rest

/-- 30_encoding.md section 3 (the spec's decision D14, log entry 23): the decoder accepts exactly the first words that
match a row of the opcode table under its strict mask; it names a reserved opcode, an undefined mode and an unused field
that is not zero; and an illegal word at `pc` is the model fault IllegalInstruction, whatever word follows it. -/
def Obligations.LegalWordsAreTheTablesRows : Prop :=
  (∀ w : Word, (∃ h, decodeHead w = .ok h) ↔ legalWord w = true) ∧
  (∀ w : Word, decodeHead w = .error .reservedOpcode ↔ opcodeIsReserved w = true) ∧
  (∀ w : Word, decodeHead w = .error .undefinedMode ↔ opcodeIsReserved w = false ∧ modeIsDefined w = false) ∧
  (∀ w : Word, decodeHead w = .error .unusedFieldNotZero ↔ modeIsDefined w = true ∧ legalWord w = false) ∧
  (∀ (s : State) (w0 : Word), s.halted = false → fetch s.pc s = .ok w0 → legalWord w0 = false →
    step s = .fault (.illegalInstruction s.pc w0))

/-- 30_encoding.md section 1 (R83), with the spec's decision D14 (log entry 23) for the clauses that a decoded word is the
canonical encoding: the length is a function of OPCODE and Mode alone, as its table has it: two words for LDI, LD direct, ST direct,
ADDI, SUBI, the branches, JMP and CALL, else one; an illegal first word has none: the machine faults on it, whatever the
next word is. -/
def Obligations.LengthIsAFunctionOfOpcodeAndMode : Prop :=
  (∀ (w : Word) (h : Head), decodeHead w = .ok h →
    h.words =
      match (opcodeField w).toNat, (modeField w).toNat with
      | 0x1, 0x00 => 2
      | 0x1, 0x01 => 2
      | 0x2, 0x00 => 2
      | 0x4, 0x06 => 2
      | 0x4, 0x07 => 2
      | 0x7, _ => 2
      | 0x8, _ => 2
      | 0xA, _ => 2
      | _, _ => 1) ∧
  (∀ (w : Word) (i : Instr), decodeHead w = .ok (.complete i) → wordCount i = 1 ∧ encodeWords i = [w]) ∧
  (∀ (w w1 : Word) (build : Word → Instr), decodeHead w = .ok (.needsWord build) →
    wordCount (build w1) = 2 ∧ encodeWords (build w1) = [w, w1]) ∧
  (∀ (s : State) (w : Word) (e : Reject), s.halted = false → fetch s.pc s = .ok w → decodeHead w = .error e →
    step s = .fault (.illegalInstruction s.pc w))

/-! ### The step -/

/-- 10_state.md section 2 (R25): when the words at `pc` decode to an instruction, the step is that instruction's meaning
at that state, the first word in the instruction register (log entry 13); nothing else is added around it. -/
def Obligations.StepRunsTheDecodedInstruction : Prop :=
  (∀ (s : State) (w0 : Word) (i : Instr), s.halted = false → fetch s.pc s = .ok w0 →
    decodeHead w0 = .ok (.complete i) → step s = exec i (s.loadIr w0)) ∧
  (∀ (s : State) (w0 w1 : Word) (build : Word → Instr), s.halted = false → fetch s.pc s = .ok w0 →
    decodeHead w0 = .ok (.needsWord build) → fetch (s.pc + 1) s = .ok w1 →
    step s = exec (build w1) (s.loadIr w0))

/-- 10_state.md section 2 and 30_encoding.md section 1: where the encoding of an instruction stands in memory at `pc`, the
step is that instruction's meaning. That its first word then stands in the instruction register is the model's own (log
entry 13). -/
def Obligations.StepRunsTheInstructionStandingAtPc : Prop :=
  ∀ (s : State) (i : Instr), s.halted = false → holdsWords s.mem s.pc (encodeWords i) →
    ∃ w0, (encodeWords i).head? = some w0 ∧ step s = exec i (s.loadIr w0)

/-- 20_memory.md section 4 and 60_exceptions.md section 1 (R59, R204; the spec's decisions D5 and D18, log entries 5 and
24): a fetch from the I/O region or of a word never written is a fault, for the first word before it is decoded, and for
the second before the instruction looks at anything. -/
def Obligations.FetchFaultsInOrder : Prop :=
  (∀ s : State, s.halted = false → ¬InStorage s.pc → step s = .fault (.fetchFromMMIO s.pc)) ∧
  (∀ s : State, s.halted = false → InStorage s.pc → s.mem.readWord s.pc = none →
    step s = .fault (.uninitialisedRead s.pc)) ∧
  (∀ (s : State) (w0 : Word) (build : Word → Instr), s.halted = false → fetch s.pc s = .ok w0 →
    decodeHead w0 = .ok (.needsWord build) → ¬InStorage (s.pc + 1) → step s = .fault (.fetchFromMMIO (s.pc + 1))) ∧
  (∀ (s : State) (w0 : Word) (build : Word → Instr), s.halted = false → fetch s.pc s = .ok w0 →
    decodeHead w0 = .ok (.needsWord build) → InStorage (s.pc + 1) → s.mem.readWord (s.pc + 1) = none →
    step s = .fault (.uninitialisedRead (s.pc + 1)))

/-- 10_state.md section 5 (R33): false at reset, set by HALT and by nothing else, never cleared; while it is true no state changes. That a halted
machine's step answers the same state is the model's form of "no step exists" (log entry 9). -/
def Obligations.OnlyHaltSetsHalted : Prop :=
  (∀ b : Boot, (State.boot b).halted = false) ∧
  (∀ s : State, ∃ t, exec .halt s = .next t ∧ t.halted = true) ∧
  (∀ (i : Instr) (s t : State), i ≠ .halt → exec i s = .next t → t.halted = s.halted) ∧
  (∀ s : State, s.halted = true → step s = .next s)

/-! ### Reset and the host -/

/-- 10_state.md section 6 and 70_reset_and_hazards.md section 1 (R38; the spec's decisions D1, D2, D6, log entries 11 and
28): for every choice of what R38 leaves unspecified, and for the fixed reset state, which is one of them. -/
def Obligations.ResetValues : Prop :=
  (∀ b : Boot, (State.boot b).pc = 0x0000 ∧ (State.boot b).reg .r7 = 0xE000 ∧ (State.boot b).halted = false ∧
    (State.boot b).out = [] ∧ (State.boot b).inp = b.input ∧ (State.boot b).eof = b.eof) ∧
  State.reset = State.boot Boot.plain ∧ State.reset.pc = 0x0000 ∧ State.reset.reg .r7 = 0xE000 ∧
  State.reset.halted = false ∧ State.reset.out = []

/-- 10_state.md section 6 and 70_reset_and_hazards.md section 2 (R38, R39, R243; the spec's decisions D5 and D30, log
entries 5 and 11): after reset storage holds the image, no other word was ever written, and nothing lies behind the I/O
region. -/
def Obligations.BootMemoryIsTheImage : Prop :=
  ∀ (b : Boot) (a : Word),
    (State.boot b).mem.readWord a = if InStorage a then b.image.lookup a else none

/-- The invariant holds of every reset state: storage is in its canonical form, keys rising, both bytes of a word or
neither, which is the model's own form (log entry 6), with nothing in the I/O region (R37, by the spec's decision D19, log
entry 24). -/
def Obligations.ResetMeetsTheInvariant : Prop :=
  State.reset.Inv ∧ ∀ b : Boot, (State.boot b).Inv

/-- 10_state.md section 5 and 20_memory.md section 4 (R37, R58, by the spec's decision D19, log entry 24; the form is the
model's own, log entry 6): every step keeps storage in its canonical form, keys rising, both bytes of a word or neither,
nothing in the I/O region. -/
def Obligations.StepKeepsTheInvariant : Prop :=
  ∀ s t : State, s.Inv → step s = .next t → t.Inv

/-- R29: no step writes V, so it keeps its reset value for the whole run; and no instruction reads it: with another V an
instruction does the same and leaves that other V. -/
def Obligations.OverflowFlagIsNeverWrittenOrRead : Prop :=
  (∀ s t : State, step s = .next t → t.flags.v = s.flags.v) ∧
  (∀ (b : Boot) (s : State), Reachable b s → s.flags.v = b.flags.v) ∧
  (∀ (i : Instr) (s : State) (v : Bool),
    (∀ t, exec i s = .next t →
      exec i (s.setFlags { s.flags with v := v }) = .next (t.setFlags { t.flags with v := v })) ∧
    (∀ f, exec i s = .fault f → exec i (s.setFlags { s.flags with v := v }) = .fault f))

/-- 10_state.md section 5 (R35, R36; the spec's decision D20, log entry 34): a step appends at most one event to the trace
and removes at most the first byte of the input; CHAR_IN_EOF never changes. -/
def Obligations.StepOnlyAppendsOutputAndConsumesInput : Prop :=
  ∀ s t : State, step s = .next t →
    (t.out = s.out ∨ ∃ e, t.out = s.out ++ [e]) ∧ (t.inp = s.inp ∨ ∃ b, s.inp = b :: t.inp) ∧ t.eof = s.eof

/-- 70_reset_and_hazards.md section 5 and 60_exceptions.md section 3 (R252, R222; the spec's decision D23, log entries 10
and 31): an instruction that completes takes one cycle; the only one that answers a next state and does not complete is a
load that waits for input, and it changes nothing. -/
def Obligations.EveryCompletedInstructionTakesOneCycle : Prop :=
  ∀ (i : Instr) (s t : State), exec i s = .next t →
    t.cycle = s.cycle + 1 ∨ (t = s ∧ loadSource i s = some 0xF820 ∧ s.inp = [] ∧ s.eof = .block)

/-! ### What instructions leave unchanged, over all instructions -/

/-- 10_state.md section 3 (R28, with conflict C1, log entry 21, and R131 for a zero divisor): an instruction writes no
flag its row does not mark, and the flags it does mark do not depend on the flags before. -/
def Obligations.FlagsWrittenAreThoseOfTheTable : Prop :=
  ∀ (i : Instr) (s t : State), exec i s = .next t →
    (writesZN i = false → t.flags.z = s.flags.z ∧ t.flags.n = s.flags.n) ∧
    (writesC i s = false → t.flags.c = s.flags.c) ∧ t.flags.v = s.flags.v ∧
    ∀ f : Flags, isBranch i = false → ∃ t', exec i (s.setFlags f) = .next t' ∧
      (writesZN i = true → t'.flags.z = t.flags.z ∧ t'.flags.n = t.flags.n) ∧
      (writesC i s = true → t'.flags.c = t.flags.c)

/-- R30: an instruction that is no conditional branch does the same whatever the flags are, and each flag it leaves is
either the same whatever the flags are or the flag as it was; BEQ and BNE read Z alone, BGT and BLE read N and Z, BLT and BGE read N, BCS and BCC read C. -/
def Obligations.OnlyBranchesReadFlags : Prop :=
  (∀ (i : Instr) (s : State), isBranch i = false →
    (∀ t, exec i s = .next t → ∃ left : Flags → Flags,
      (∀ f, exec i (s.setFlags f) = .next (t.setFlags (left f))) ∧
      ((∀ f, (left f).z = t.flags.z) ∨ ∀ f, (left f).z = f.z) ∧
      ((∀ f, (left f).n = t.flags.n) ∨ ∀ f, (left f).n = f.n) ∧
      ((∀ f, (left f).c = t.flags.c) ∨ ∀ f, (left f).c = f.c) ∧
      ((∀ f, (left f).v = t.flags.v) ∨ ∀ f, (left f).v = f.v)) ∧
    (∀ x, exec i s = .fault x → ∀ f, exec i (s.setFlags f) = .fault x)) ∧
  (∀ (addr : Word) (s : State) (f : Flags) (i : Instr),
    (f.z = s.flags.z ∧ (i = .beq addr ∨ i = .bne addr)) ∨
    (f.z = s.flags.z ∧ f.n = s.flags.n ∧ (i = .bgt addr ∨ i = .ble addr)) ∨
    (f.n = s.flags.n ∧ (i = .blt addr ∨ i = .bge addr)) ∨
    (f.c = s.flags.c ∧ (i = .bcs addr ∨ i = .bcc addr)) →
    ∃ t, exec i s = .next t ∧ exec i (s.setFlags f) = .next (t.setFlags f))

/-- 10_state.md section 1 (R21, R22): an instruction writes no general register but its destination and, for PUSH, POP,
CALL and RET, R7. -/
def Obligations.RegistersWrittenAreTheDestinations : Prop :=
  ∀ (i : Instr) (s t : State), exec i s = .next t → ∀ r, r ∉ destRegs i → t.reg r = s.reg r

/-- 20_memory.md sections 1 and 4 (R51, R58): an instruction changes no byte of storage but the two of the word at the
address of its data write, and none at all when that address is in the I/O region. -/
def Obligations.MemoryWrittenIsTheStoreTarget : Prop :=
  ∀ (i : Instr) (s t : State), exec i s = .next t →
    (∀ key, (∀ a, storeTarget i s = some a → key ≠ lowKey a ∧ key ≠ highKey a) →
      t.mem.readCell key = s.mem.readCell key) ∧
    (∀ a, storeTarget i s = some a → ¬InStorage a → t.mem = s.mem)

/-- 60_exceptions.md section 3 (R211, R212) and 41_arithmetic.md R131: output only by a data write in the I/O region, input
only by a data read there, a free value only by a timer read or a division by zero; IR and CHAR_IN_EOF by none. -/
def Obligations.DevicesActOnlyOnAccessesInTheIORegion : Prop :=
  ∀ (i : Instr) (s t : State), exec i s = .next t →
    ((∀ a, storeTarget i s = some a → InStorage a) → t.out = s.out) ∧
    (loadSource i s ≠ some 0xF820 → t.inp = s.inp) ∧
    (loadSource i s ≠ some 0xF810 → (∀ rd rs, i = .div rd rs → s.reg rs ≠ 0) → t.draws = s.draws) ∧
    t.ir = s.ir ∧ t.eof = s.eof

/-! ### Data transfer -/

/-- 40_data_transfer.md (R110): LDI loads its second word, for every register, R7 included; no flag is written. -/
def Obligations.LdiLoadsTheImmediate : Prop :=
  ∀ (rd : Reg) (imm : Word) (s : State), ∃ t, exec (.ldi rd imm) s = .next t ∧ t.reg rd = imm ∧ t.flags = s.flags ∧
    othersKept rd s t ∧ restKept s t ∧ advanced 2 s t ∧ encodeWords (.ldi rd imm) = [withRd 0x1000 rd, imm]

/-- 40_data_transfer.md (R115): MOV copies a register; no flag is written. (A register no instruction has written yet is read all the same:
log entry 4.) -/
def Obligations.MovCopiesTheRegister : Prop :=
  ∀ (rd rs : Reg) (s : State), ∃ t, exec (.mov rd rs) s = .next t ∧ t.reg rd = s.reg rs ∧ t.flags = s.flags ∧
    othersKept rd s t ∧ restKept s t ∧ advanced 1 s t ∧ encodeWords (.mov rd rs) = [withRs (withRd 0x3000 rd) rs]

/-- 40_data_transfer.md (R111): LD direct loads the word at its second word, or what the device there delivers; no flag is
written, and a read that faults or waits writes nothing. What a device delivers, and that a waiting load answers the same
state, are the spec's decisions D17, D23, D24 and the model's form (log entries 8, 10, 24, 26). -/
def Obligations.LdDirectLoadsTheWord : Prop :=
  ∀ (rd : Reg) (addr : Word) (s : State),
    loads (.ldDirect rd addr) addr s (fun w u t =>
      t.reg rd = w ∧ t.flags = s.flags ∧ othersKept rd s t ∧ restKept u t ∧ advanced 2 s t) ∧
    encodeWords (.ldDirect rd addr) = [withRd 0x1001 rd, addr]

/-- 40_data_transfer.md (R112): LD indirect does the same at the address Rs holds, read before Rd is written. The device
clauses rest on the decisions LdDirectLoadsTheWord names. -/
def Obligations.LdIndirectLoadsTheWord : Prop :=
  ∀ (rd rs : Reg) (s : State),
    loads (.ldIndirect rd rs) (s.reg rs) s (fun w u t =>
      t.reg rd = w ∧ t.flags = s.flags ∧ othersKept rd s t ∧ restKept u t ∧ advanced 1 s t) ∧
    encodeWords (.ldIndirect rd rs) = [withRs (withRd 0x1002 rd) rs]

/-- 40_data_transfer.md (R113): ST direct stores Rs at its second word, or gives it to the device there; no register and
no flag is written. The clause on addresses without a writable device is the spec's decision D17 (log entry 24). -/
def Obligations.StDirectStoresTheRegister : Prop :=
  ∀ (addr : Word) (rs : Reg) (s : State),
    stores (.stDirect addr rs) (directAddress addr) (s.reg rs) s (fun t =>
      t.regs = s.regs ∧ t.flags = s.flags ∧ insideKept s t ∧ advanced 2 s t) ∧
    encodeWords (.stDirect addr rs) = [withRs 0x2000 rs, addr]

/-- 40_data_transfer.md (R114): ST indirect does the same at the address Rd holds; Rd is read and not written. The clause
on addresses without a writable device is the spec's decision D17 (log entry 24). -/
def Obligations.StIndirectStoresTheRegister : Prop :=
  ∀ (rd rs : Reg) (s : State),
    stores (.stIndirect rd rs) (indirectAddress s rd) (s.reg rs) s (fun t =>
      t.regs = s.regs ∧ t.flags = s.flags ∧ insideKept s t ∧ advanced 1 s t) ∧
    encodeWords (.stIndirect rd rs) = [withRs (withRd 0x2001 rd) rs]

/-- 20_memory.md section 5 (R63, R66, R68; the spec's decisions D25 and D26, log entry 30) and, for the string scan,
60_exceptions.md section 3 (R217, R218; that a zero low byte with a non-zero high byte is StringScanFault is the spec's own
decision D22, log entry 25): whichever instruction stores a
word to storage, the word then stands at its address and every other address reads as before; it stands there after every
instruction that does not store there; and while it stands there, every load, every fetch and every string scan of that
address sees it. What word PUSH R7 and CALL store, and that POP R7 leaves the loaded word plus one, are the spec's own
decisions D29 and D7 (log entries 22 and 15). -/
def Obligations.StoreIsSeenByLoadsAndFetches : Prop :=
  (∀ (i : Instr) (s : State) (a : Word), storeTarget i s = some a → InStorage a →
    ∃ t, exec i s = .next t ∧ t.mem.readWord a = some (storeValue i s) ∧
      ∀ b, b ≠ a → t.mem.readWord b = s.mem.readWord b ∧ fetch b t = fetch b s) ∧
  (∀ (i : Instr) (s t : State) (a v : Word), s.mem.readWord a = some v → storeTarget i s ≠ some a →
    exec i s = .next t → t.mem.readWord a = some v) ∧
  (∀ (s : State) (a v : Word), InStorage a → s.mem.readWord a = some v →
    fetch a s = .ok v ∧
    (∀ i, loadSource i s = some a → ∃ t, exec i s = .next t ∧
      (∀ rd, i = .ldDirect rd a → t.reg rd = v) ∧ (∀ rd rs, i = .ldIndirect rd rs → t.reg rd = v) ∧
      (∀ rd, i = .pop rd → rd ≠ .r7 → t.reg rd = v) ∧ (i = .pop .r7 → t.reg .r7 = v + 1) ∧ (i = .ret → t.pc = v)) ∧
    ∀ n, (v = 0x0000 → scanString s.mem (n + 1) a = .ok []) ∧
      (v ≠ 0x0000 → lowByte v = 0x00 → scanString s.mem (n + 1) a = .error (.stringScanFault a)) ∧
      (∀ bs, lowByte v ≠ 0x00 → scanString s.mem n (a + 1) = .ok bs →
        scanString s.mem (n + 1) a = .ok (lowByte v :: bs)) ∧
      (∀ f, lowByte v ≠ 0x00 → scanString s.mem n (a + 1) = .error f → scanString s.mem (n + 1) a = .error f))

/-- 20_memory.md section 4 (R60): a read of storage returns the last value written and changes nothing; repeating a write
of the same value changes nothing; each write to an output device appends one event, so two writes give two, and each read
of the character input consumes one byte. The premise is the invariant of the model. -/
def Obligations.StorageIsIdempotentDevicesAreNot : Prop :=
  (∀ (a w : Word) (s t : State), InStorage a → memRead a s = .value w t → t = s ∧ s.mem.readWord a = some w) ∧
  (∀ (a v : Word) (s : State), InStorage a → ∃ t, memWrite a v s = .ok t ∧ memRead a t = .value v t) ∧
  (∀ (a v : Word) (s t : State), s.Inv → InStorage a → memWrite a v s = .ok t → memWrite a v t = .ok t) ∧
  (∀ (a v : Word) (s t : State), ¬InStorage a → memWrite a v s = .ok t → ∃ e, t = s.emit e) ∧
  (∀ (w : Word) (s t : State), memRead 0xF820 s = .value w t → s.inp ≠ [] → s.inp.tail = t.inp)

/-! ### Arithmetic -/

/-- R124: ADD writes the sum modulo 65536, Z and N from it, and C when the exact sum exceeds 65535. -/
def Obligations.AddAddsTheRegisters : Prop :=
  ∀ (rd rs : Reg) (s : State), ∃ t, exec (.add rd rs) s = .next t ∧
    (t.reg rd).toNat = ((s.reg rd).toNat + (s.reg rs).toNat) % 65536 ∧
    (t.flags.c = true ↔ (s.reg rd).toNat + (s.reg rs).toNat > 65535) ∧ computed rd 1 s t ∧
    encodeWords (.add rd rs) = [withRs (withRd 0x4000 rd) rs]

/-- R130: ADDI is ADD with its second word. -/
def Obligations.AddiAddsTheImmediate : Prop :=
  ∀ (rd : Reg) (imm : Word) (s : State), ∃ t, exec (.addi rd imm) s = .next t ∧
    (t.reg rd).toNat = ((s.reg rd).toNat + imm.toNat) % 65536 ∧
    (t.flags.c = true ↔ (s.reg rd).toNat + imm.toNat > 65535) ∧ computed rd 2 s t ∧
    encodeWords (.addi rd imm) = [withRd 0x4006 rd, imm]

/-- 41_arithmetic.md section 2 (R125, R132): SUB and SUBI write the difference modulo 65536. That C is the borrow is the
spec's own decision D9 (log entry 17). -/
def Obligations.SubAndSubiSubtract : Prop :=
  (∀ (rd rs : Reg) (s : State), ∃ t, exec (.sub rd rs) s = .next t ∧
    ((t.reg rd).toNat : Int) = (((s.reg rd).toNat : Int) - ((s.reg rs).toNat : Int)) % 65536 ∧
    (t.flags.c = true ↔ (s.reg rd).toNat < (s.reg rs).toNat) ∧ computed rd 1 s t ∧
    encodeWords (.sub rd rs) = [withRs (withRd 0x4001 rd) rs]) ∧
  (∀ (rd : Reg) (imm : Word) (s : State), ∃ t, exec (.subi rd imm) s = .next t ∧
    ((t.reg rd).toNat : Int) = (((s.reg rd).toNat : Int) - (imm.toNat : Int)) % 65536 ∧
    (t.flags.c = true ↔ (s.reg rd).toNat < imm.toNat) ∧ computed rd 2 s t ∧
    encodeWords (.subi rd imm) = [withRd 0x4007 rd, imm])

/-- 41_arithmetic.md section 2 (R126): MUL writes the lower 16 bits of the product. That C says the unsigned product does
not fit is the spec's own decision D10 (log entry 18). -/
def Obligations.MulMultiplies : Prop :=
  ∀ (rd rs : Reg) (s : State), ∃ t, exec (.mul rd rs) s = .next t ∧
    (t.reg rd).toNat = ((s.reg rd).toNat * (s.reg rs).toNat) % 65536 ∧
    (t.flags.c = true ↔ (s.reg rd).toNat * (s.reg rs).toNat > 65535) ∧ computed rd 1 s t ∧
    encodeWords (.mul rd rs) = [withRs (withRd 0x4002 rd) rs]

/-- 41_arithmetic.md sections 2 and 3 (R127, R133): DIV by a divisor that is not zero writes the quotient and leaves C.
That the operands are unsigned is the spec's own decision D11 and that C is kept its conflict C1 (log entries 19 and 21);
where bit 15 of both operands is 0 the signed quotient is the same. -/
def Obligations.DivDivides : Prop :=
  ∀ (rd rs : Reg) (s : State), s.reg rs ≠ 0 → ∃ t, exec (.div rd rs) s = .next t ∧
    (t.reg rd).toNat = (s.reg rd).toNat / (s.reg rs).toNat ∧ t.flags.c = s.flags.c ∧ computed rd 1 s t ∧
    ((s.reg rd).toNat ≤ 32767 → (s.reg rs).toNat ≤ 32767 →
      (t.reg rd).toInt = (s.reg rd).toInt.tdiv (s.reg rs).toInt) ∧
    encodeWords (.div rd rs) = [withRs (withRd 0x4003 rd) rs]

/-- 41_arithmetic.md section 2 (R131; the spec's own decision D12, log entries 7 and 20): DIV by zero completes and keeps
every register; Z, N and C become the next three free values, V is kept and nothing else changes. -/
def Obligations.DivByZeroKeepsTheRegister : Prop :=
  ∀ (rd rs : Reg) (s : State), s.reg rs = 0 → ∃ t, exec (.div rd rs) s = .next t ∧ t.regs = s.regs ∧
    t.flags = { s.flags with z := Config.anyBit s.draws, n := Config.anyBit (s.draws + 1), c := Config.anyBit (s.draws + 2) } ∧
    t.draws = s.draws + 3 ∧ t.ir = s.ir ∧ t.mem = s.mem ∧ t.halted = s.halted ∧ t.out = s.out ∧ t.inp = s.inp ∧
    t.eof = s.eof ∧ advanced 1 s t

/-- R128, R129: INC and DEC add and subtract one modulo 65536, and leave C. -/
def Obligations.IncAndDecLeaveCarry : Prop :=
  (∀ (rd : Reg) (s : State), ∃ t, exec (.inc rd) s = .next t ∧
    (t.reg rd).toNat = ((s.reg rd).toNat + 1) % 65536 ∧ t.flags.c = s.flags.c ∧ computed rd 1 s t ∧
    encodeWords (.inc rd) = [withRd 0x4004 rd]) ∧
  (∀ (rd : Reg) (s : State), ∃ t, exec (.dec rd) s = .next t ∧
    ((t.reg rd).toNat : Int) = (((s.reg rd).toNat : Int) - 1) % 65536 ∧ t.flags.c = s.flags.c ∧ computed rd 1 s t ∧
    encodeWords (.dec rd) = [withRd 0x4005 rd])

/-! ### Logical, shift, compare -/

/-- 42_logical.md (R140 to R143): AND, OR, XOR and NOT work bit by bit, and leave C. (That XOR of a register no instruction
has written runs all the same, where R142 names the fault of R39, is the model's choice, log entry 4.) -/
def Obligations.LogicalInstructionsWorkBitByBit : Prop :=
  (∀ (rd rs : Reg) (s : State), ∃ t, exec (.and rd rs) s = .next t ∧
    (∀ k, k < 16 → (t.reg rd).getLsbD k = ((s.reg rd).getLsbD k && (s.reg rs).getLsbD k)) ∧
    t.flags.c = s.flags.c ∧ computed rd 1 s t ∧ encodeWords (.and rd rs) = [withRs (withRd 0x5000 rd) rs]) ∧
  (∀ (rd rs : Reg) (s : State), ∃ t, exec (.or rd rs) s = .next t ∧
    (∀ k, k < 16 → (t.reg rd).getLsbD k = ((s.reg rd).getLsbD k || (s.reg rs).getLsbD k)) ∧
    t.flags.c = s.flags.c ∧ computed rd 1 s t ∧ encodeWords (.or rd rs) = [withRs (withRd 0x5001 rd) rs]) ∧
  (∀ (rd rs : Reg) (s : State), ∃ t, exec (.xor rd rs) s = .next t ∧
    (∀ k, k < 16 → (t.reg rd).getLsbD k = ((s.reg rd).getLsbD k != (s.reg rs).getLsbD k)) ∧
    t.flags.c = s.flags.c ∧ computed rd 1 s t ∧ encodeWords (.xor rd rs) = [withRs (withRd 0x5002 rd) rs]) ∧
  (∀ (rd : Reg) (s : State), ∃ t, exec (.not rd) s = .next t ∧
    (∀ k, k < 16 → (t.reg rd).getLsbD k = !(s.reg rd).getLsbD k) ∧ (t.reg rd).toNat = 65535 - (s.reg rd).toNat ∧
    t.flags.c = s.flags.c ∧ computed rd 1 s t ∧ encodeWords (.not rd) = [withRd 0x5003 rd])

/-- 43_shift.md (R150, R151; that SHL reduces to 16 bits is derived there): SHL and SHR shift by the low 4 bits of Rs, zeros
entering, and leave C: the bits shifted out are lost. -/
def Obligations.ShlAndShrShiftInZeros : Prop :=
  (∀ (rd rs : Reg) (s : State), ∃ t, exec (.shl rd rs) s = .next t ∧
    (t.reg rd).toNat = (s.reg rd).toNat * 2 ^ ((s.reg rs).toNat % 16) % 65536 ∧
    (∀ k, k < 16 → (t.reg rd).getLsbD k =
      (decide ((s.reg rs).toNat % 16 ≤ k) && (s.reg rd).getLsbD (k - (s.reg rs).toNat % 16))) ∧
    t.flags.c = s.flags.c ∧ computed rd 1 s t ∧ encodeWords (.shl rd rs) = [withRs (withRd 0x6000 rd) rs]) ∧
  (∀ (rd rs : Reg) (s : State), ∃ t, exec (.shr rd rs) s = .next t ∧
    (t.reg rd).toNat = (s.reg rd).toNat / 2 ^ ((s.reg rs).toNat % 16) ∧
    (∀ k, k < 16 → (t.reg rd).getLsbD k = (s.reg rd).getLsbD (k + (s.reg rs).toNat % 16)) ∧
    t.flags.c = s.flags.c ∧ computed rd 1 s t ∧ encodeWords (.shr rd rs) = [withRs (withRd 0x6001 rd) rs])

/-- R152: SAR divides the signed value, rounding toward minus infinity; equivalently the low bits are the old ones moved
down and every bit above them is the old bit 15; C is left. -/
def Obligations.SarShiftsInTheSign : Prop :=
  ∀ (rd rs : Reg) (s : State), ∃ t, exec (.sar rd rs) s = .next t ∧
    (t.reg rd).toInt = (s.reg rd).toInt / ((2 ^ ((s.reg rs).toNat % 16) : Nat) : Int) ∧
    (∀ k, k < 16 → (t.reg rd).getLsbD k =
      if k + (s.reg rs).toNat % 16 ≤ 15 then (s.reg rd).getLsbD (k + (s.reg rs).toNat % 16)
      else (s.reg rd).getLsbD 15) ∧
    (t.flags.n = true ↔ (s.reg rd).getLsbD 15 = true) ∧
    t.flags.c = s.flags.c ∧ computed rd 1 s t ∧ encodeWords (.sar rd rs) = [withRs (withRd 0x6002 rd) rs]

/-- 46_compare.md (R185): CMP writes the flags SUB would write, and no register. That C is the borrow is the spec's own
decision D9 (log entry 17). -/
def Obligations.CmpWritesTheFlagsOfSub : Prop :=
  ∀ (rd rs : Reg) (s : State), ∃ t u, exec (.cmp rd rs) s = .next t ∧ exec (.sub rd rs) s = .next u ∧
    t.flags = u.flags ∧ (t.flags.z = true ↔ s.reg rd = s.reg rs) ∧
    (t.flags.n = true ↔ (((s.reg rd).toNat : Int) - ((s.reg rs).toNat : Int)) % 65536 ≥ 32768) ∧
    (t.flags.c = true ↔ (s.reg rd).toNat < (s.reg rs).toNat) ∧ t.flags.v = s.flags.v ∧
    t.regs = s.regs ∧ restKept s t ∧ advanced 1 s t ∧ encodeWords (.cmp rd rs) = [withRs (withRd 0xC000 rd) rs]

/-! ### Branch and jump -/

/-- R160 to R167: each conditional branch goes to its second word exactly when its condition holds, else past the address
word; it writes no flag, no register and no memory. -/
def Obligations.BranchesTestTheirConditions : Prop :=
  ∀ (addr : Word) (s : State) (i : Instr) (first : Word) (condition : Prop),
    (i = .beq addr ∧ first = 0x7000 ∧ (condition ↔ s.flags.z = true)) ∨
    (i = .bne addr ∧ first = 0x7001 ∧ (condition ↔ s.flags.z = false)) ∨
    (i = .bgt addr ∧ first = 0x7002 ∧ (condition ↔ s.flags.n = false ∧ s.flags.z = false)) ∨
    (i = .blt addr ∧ first = 0x7003 ∧ (condition ↔ s.flags.n = true)) ∨
    (i = .bge addr ∧ first = 0x7004 ∧ (condition ↔ s.flags.n = false)) ∨
    (i = .ble addr ∧ first = 0x7005 ∧ (condition ↔ s.flags.n = true ∨ s.flags.z = true)) ∨
    (i = .bcs addr ∧ first = 0x7006 ∧ (condition ↔ s.flags.c = true)) ∨
    (i = .bcc addr ∧ first = 0x7007 ∧ (condition ↔ s.flags.c = false)) →
    ∃ t, exec i s = .next t ∧ (condition → t.pc = addr) ∧ (¬condition → t.pc = s.pc + 2) ∧
      t.regs = s.regs ∧ t.flags = s.flags ∧ restKept s t ∧ t.cycle = s.cycle + 1 ∧ encodeWords i = [first, addr]

/-- R168: JMP goes to its second word and writes nothing else. -/
def Obligations.JmpGoesToItsAddress : Prop :=
  ∀ (addr : Word) (s : State), ∃ t, exec (.jmp addr) s = .next t ∧ t.pc = addr ∧ t.regs = s.regs ∧
    t.flags = s.flags ∧ restKept s t ∧ t.cycle = s.cycle + 1 ∧ encodeWords (.jmp addr) = [0x8000, addr]

/-- 44_branch_jump.md (R169, derived there; the carry rows rest on decision D9, log entry 17): what each branch means
after CMP Ra, Rb. The four branches that test N give the signed comparison exactly where the signed difference fits, and
its opposite where it does not. -/
def Obligations.BranchAfterCompareMeansTheComparison : Prop :=
  ∀ (ra rb : Reg) (s : State), ∃ t, exec (.cmp ra rb) s = .next t ∧ ∀ addr, addr ≠ t.pc + 2 →
    (goesTo (.beq addr) t addr ↔ s.reg ra = s.reg rb) ∧
    (goesTo (.bne addr) t addr ↔ s.reg ra ≠ s.reg rb) ∧
    (goesTo (.bcs addr) t addr ↔ (s.reg ra).toNat < (s.reg rb).toNat) ∧
    (goesTo (.bcc addr) t addr ↔ (s.reg ra).toNat ≥ (s.reg rb).toNat) ∧
    (-32768 ≤ (s.reg ra).toInt - (s.reg rb).toInt ∧ (s.reg ra).toInt - (s.reg rb).toInt ≤ 32767 →
      (goesTo (.blt addr) t addr ↔ (s.reg ra).toInt < (s.reg rb).toInt) ∧
      (goesTo (.bge addr) t addr ↔ (s.reg ra).toInt ≥ (s.reg rb).toInt) ∧
      (goesTo (.bgt addr) t addr ↔ (s.reg ra).toInt > (s.reg rb).toInt) ∧
      (goesTo (.ble addr) t addr ↔ (s.reg ra).toInt ≤ (s.reg rb).toInt)) ∧
    (¬(-32768 ≤ (s.reg ra).toInt - (s.reg rb).toInt ∧ (s.reg ra).toInt - (s.reg rb).toInt ≤ 32767) →
      (goesTo (.blt addr) t addr ↔ ¬(s.reg ra).toInt < (s.reg rb).toInt) ∧
      (goesTo (.bge addr) t addr ↔ ¬(s.reg ra).toInt ≥ (s.reg rb).toInt) ∧
      (goesTo (.bgt addr) t addr ↔ ¬(s.reg ra).toInt > (s.reg rb).toInt) ∧
      (goesTo (.ble addr) t addr ↔ ¬(s.reg ra).toInt ≤ (s.reg rb).toInt))

/-! ### Stack and subroutine -/

/-- 45_stack_subroutine.md (R175): PUSH decrements SP and stores Rs at the new SP, or gives it to the device there; no flag
is written. That PUSH R7 stores the decremented SP is the spec's own decision D29 (log entry 22), the clause on addresses
without a writable device D17 (log entry 24). -/
def Obligations.PushStoresBelowTheStackPointer : Prop :=
  ∀ (rs : Reg) (s : State),
    stores (.push rs) (pushAddress s) (if rs = .r7 then s.reg .r7 - 1 else s.reg rs) s (fun t =>
      t.reg .r7 = s.reg .r7 - 1 ∧ othersKept .r7 s t ∧ t.flags = s.flags ∧ insideKept s t ∧ advanced 1 s t) ∧
    encodeWords (.push rs) = [withRs 0x9000 rs]

/-- 45_stack_subroutine.md (R176): POP loads Rd from SP and increments SP; no flag is written and the word stays in
memory. That POP R7 leaves the loaded word plus one is the spec's own decision D29 (log entry 22); the device clauses rest
on the decisions LdDirectLoadsTheWord names. -/
def Obligations.PopLoadsAtTheStackPointer : Prop :=
  ∀ (rd : Reg) (s : State),
    loads (.pop rd) (popAddress s) s (fun w u t =>
      (rd = .r7 → t.reg .r7 = w + 1) ∧ (rd ≠ .r7 → t.reg rd = w ∧ t.reg .r7 = s.reg .r7 + 1) ∧
      (∀ r, r ≠ rd → r ≠ .r7 → t.reg r = s.reg r) ∧ t.flags = s.flags ∧ restKept u t ∧ advanced 1 s t) ∧
    encodeWords (.pop rd) = [withRd 0x9001 rd]

/-- 45_stack_subroutine.md (R177): CALL pushes the return address and goes to its second word; no flag and no other
register is written. That the return address is the CALL's plus two is the spec's own decision D7 (log entry 15), the
clause on addresses without a writable device D17 (log entry 24). -/
def Obligations.CallPushesTheReturnAddress : Prop :=
  ∀ (addr : Word) (s : State),
    stores (.call addr) (pushAddress s) (s.pc + 2) s (fun t =>
      t.reg .r7 = s.reg .r7 - 1 ∧ othersKept .r7 s t ∧ t.flags = s.flags ∧ insideKept s t ∧ t.pc = addr ∧
      t.cycle = s.cycle + 1) ∧
    encodeWords (.call addr) = [0xA000, addr]

/-- 45_stack_subroutine.md (R178): RET goes to the word at SP and increments SP; no flag is written. The device clauses
rest on the decisions LdDirectLoadsTheWord names. -/
def Obligations.RetPopsTheProgramCounter : Prop :=
  ∀ s : State,
    loads .ret (popAddress s) s (fun w u t =>
      t.pc = w ∧ t.reg .r7 = s.reg .r7 + 1 ∧ othersKept .r7 s t ∧ t.flags = s.flags ∧ restKept u t ∧
      t.cycle = s.cycle + 1) ∧
    encodeWords .ret = [0xB000]

/-- 45_stack_subroutine.md (R175 to R178, with decision D7, log entry 15): with the stack in storage, RET right after CALL
comes back to the word after CALL's two with SP as it was, and POP right after PUSH gives the pushed word back. -/
def Obligations.ReturnAndPopUndoCallAndPush : Prop :=
  (∀ (addr : Word) (s : State), InStorage (s.reg .r7 - 1) → ∃ t u, exec (.call addr) s = .next t ∧
    exec .ret t = .next u ∧ t.pc = addr ∧ u.pc = s.pc + 2 ∧ u.regs = s.regs ∧ u.flags = s.flags) ∧
  (∀ (rs rd : Reg) (s : State), InStorage (s.reg .r7 - 1) → rs ≠ .r7 → rd ≠ .r7 → ∃ t u,
    exec (.push rs) s = .next t ∧ exec (.pop rd) t = .next u ∧ u.reg rd = s.reg rs ∧ u.reg .r7 = s.reg .r7 ∧
    (∀ r, r ≠ rd → u.reg r = s.reg r) ∧ u.flags = s.flags)

/-! ### System -/

/-- 47_system.md (R190): NOP changes nothing but `pc` and the cycle counter, and is the word 0x0000. That no other word of
its opcode is an instruction is strict decoding, the spec's own decision D14 (log entry 23). -/
def Obligations.NopOnlyAdvances : Prop :=
  (∀ s : State, ∃ t, exec .nop s = .next t ∧ t.regs = s.regs ∧ t.flags = s.flags ∧ restKept s t ∧ advanced 1 s t) ∧
  encodeWords .nop = [0x0000] ∧ ∀ w : Word, opcodeField w = 0 → w ≠ 0x0000 → ∃ e, decodeHead w = .error e

/-- 47_system.md (R191): HALT sets `halted` and changes no register, flag, memory word or device; the run is over. That
`pc` stays at the HALT word is the spec's own decision D27 (log entry 27), and that a halted machine's step answers the
same state is the model's form (log entry 9). -/
def Obligations.HaltStopsTheMachine : Prop :=
  ∀ s : State, ∃ t, exec .halt s = .next t ∧ t.halted = true ∧ t.pc = s.pc ∧ t.regs = s.regs ∧ t.flags = s.flags ∧
    t.ir = s.ir ∧ t.mem = s.mem ∧ t.out = s.out ∧ t.inp = s.inp ∧ t.eof = s.eof ∧ t.draws = s.draws ∧
    t.cycle = s.cycle + 1 ∧ (∀ k, core.run k t = .next t) ∧ encodeWords .halt = [0xF000]

/-! ### The devices -/

/-- 60_exceptions.md section 3 (R214, R215): a write to 0xF800 emits the low 8 bits as a character, a write to 0xF801 the
whole word as an integer, whichever instruction makes it, and no memory changes. What word PUSH R7 and CALL write is the
spec's own decisions D29 and D7 (log entries 22 and 15). -/
def Obligations.OutputDevicesEmitTheWordWritten : Prop :=
  ∀ (i : Instr) (s : State),
    (storeTarget i s = some 0xF800 → ∃ t, exec i s = .next t ∧
      t.out = s.out ++ [.charOut ((storeValue i s).extractLsb' 0 8)] ∧ t.mem = s.mem) ∧
    (storeTarget i s = some 0xF801 → ∃ t, exec i s = .next t ∧
      t.out = s.out ++ [.intOut (storeValue i s)] ∧ t.mem = s.mem)

/-- 60_exceptions.md section 3 (R217; the faults are the spec's own decisions D5 and D22, log entries 5 and 25): a write to 0xF802 emits the string at the address written, the low bytes of its words up to the terminator
0x0000, which is not emitted; memory is not changed. A scan that meets a word never written, or reaches the I/O region,
is a model fault. -/
def Obligations.StringDeviceEmitsTheString : Prop :=
  ∀ (i : Instr) (s : State) (ws : List Word), storeTarget i s = some 0xF802 → holdsText s.mem (storeValue i s) ws →
    (InStorage (storeValue i s + BitVec.ofNat 16 ws.length) →
      s.mem.readWord (storeValue i s + BitVec.ofNat 16 ws.length) = some 0x0000 →
      ∃ t, exec i s = .next t ∧ t.out = s.out ++ [.strOut (ws.map lowByte)] ∧ t.mem = s.mem) ∧
    (InStorage (storeValue i s + BitVec.ofNat 16 ws.length) →
      s.mem.readWord (storeValue i s + BitVec.ofNat 16 ws.length) = none →
      exec i s = .fault (.uninitialisedRead (storeValue i s + BitVec.ofNat 16 ws.length))) ∧
    (¬InStorage (storeValue i s + BitVec.ofNat 16 ws.length) →
      exec i s = .fault (.stringScanFault (storeValue i s + BitVec.ofNat 16 ws.length)))

/-- 60_exceptions.md section 3 (R218; the spec's own decision D22, log entry 25): a word with a zero low byte and a
non-zero high byte stops the scan as a model fault; and every scan ends, in a string or in a fault: a write to 0xF802
never leaves the machine waiting or unchanged. -/
def Obligations.StringScanStopsOnAHalfZeroWord : Prop :=
  (∀ (i : Instr) (s : State) (ws : List Word) (w : Word), storeTarget i s = some 0xF802 →
    holdsText s.mem (storeValue i s) ws → InStorage (storeValue i s + BitVec.ofNat 16 ws.length) →
    s.mem.readWord (storeValue i s + BitVec.ofNat 16 ws.length) = some w → w ≠ 0x0000 → lowByte w = 0x00 →
    exec i s = .fault (.stringScanFault (storeValue i s + BitVec.ofNat 16 ws.length))) ∧
  (∀ (i : Instr) (s t : State), storeTarget i s = some 0xF802 → exec i s = .next t →
    ∃ ws, holdsText s.mem (storeValue i s) ws ∧ t.out = s.out ++ [.strOut (ws.map lowByte)] ∧
      s.mem.readWord (storeValue i s + BitVec.ofNat 16 ws.length) = some 0x0000)

/-- 60_exceptions.md sections 3 and 4 (R221, R222, R226; the spec's decision D24, log entries 10, 12 and 26): whichever
instruction loads from the character input, with no input left and CHAR_IN_EOF = block it leaves the machine as it is; once
the host has a byte for it, it completes with that byte, and all but its destination, the input stream, `pc` and `cycle` is
as before. That POP R7 leaves the byte plus one is the spec's own decision D29 (log entry 22). -/
def Obligations.WaitingLoadResumesWhenInputArrives : Prop :=
  ∀ (i : Instr) (s : State) (b : Byte) (bs : List Byte), loadSource i s = some 0xF820 → s.inp = [] → s.eof = .block →
    exec i s = .next s ∧
    ∃ t, exec i (s.provideInput (b :: bs)) = .next t ∧
      (∀ rd addr, i = .ldDirect rd addr → (t.reg rd).toNat = b.toNat) ∧
      (∀ rd rs, i = .ldIndirect rd rs → (t.reg rd).toNat = b.toNat) ∧
      (∀ rd, i = .pop rd → rd ≠ .r7 → (t.reg rd).toNat = b.toNat ∧ t.reg .r7 = s.reg .r7 + 1) ∧
      (i = .pop .r7 → (t.reg .r7).toNat = b.toNat + 1) ∧
      (i = .ret → t.pc.toNat = b.toNat ∧ t.reg .r7 = s.reg .r7 + 1) ∧
      (i ≠ .ret → t.pc = s.pc + BitVec.ofNat 16 (wordCount i)) ∧
      (∀ r, r ∉ destRegs i → t.reg r = s.reg r) ∧ t.flags = s.flags ∧ restKept (s.setInput bs) t ∧
      t.cycle = s.cycle + 1

/-- 60_exceptions.md section 3 (R216, R219; the spec's decision D21, log entry 32): standard output is the events' bytes in
trace order with nothing before, between or after them, and the default text of an integer is its decimal digits: at least
one, they read back as the unsigned value, and the first is not a zero unless it is the only one. -/
def Obligations.StdoutIsTheEventsBytes : Prop :=
  (∀ fmt : Word → List Byte, stdoutBytes fmt [] = []) ∧
  (∀ (fmt : Word → List Byte) (out : List OutEvent) (e : OutEvent),
    stdoutBytes fmt (out ++ [e]) = stdoutBytes fmt out ++
      match e with
      | .charOut b => [b]
      | .intOut v => fmt v
      | .strOut bs => bs) ∧
  (∀ v : Word, unsignedDecimal v ≠ [] ∧
    (unsignedDecimal v).foldl (fun acc (b : Byte) => 10 * acc + (b.toNat - 48)) 0 = v.toNat ∧
    (∀ b ∈ unsignedDecimal v, 48 ≤ b.toNat ∧ b.toNat ≤ 57) ∧
    (∀ b rest, unsignedDecimal v = b :: rest → b.toNat = 48 → rest = [] ∧ v.toNat = 0))

/-! ### The assembler -/

/-- 30_encoding.md section 4 (R99, R100, R103): for each line of R100's table, each register and each value, the
assembler turns the statement into the words of the instruction named there, destination first; brackets round a register
select the indirect encoding, round a value the direct one; a label stands for its address, a literal from -32768 to
65535 for its word modulo 65536 (outside that range: log entry 33). A mnemonic that is none of the 35, R103's
pseudo-instructions among them, has no words, and no statement has other words than an instruction's. That a lowercase
mnemonic has none, which R98 and decision D31 leave open, and that a label is looked up by its exact name, case included,
are the model's own choices (log entries 33 and 38). -/
def Obligations.AssembledStatementsAreTheInstructionsWords : Prop :=
  (∀ (labels : List (List Char × Word)) (rd rs : Reg) (v : Value) (w : Word), valueWord labels v = some w →
    (statementWords labels "NOP" [] = some (encodeWords .nop) ∧
      statementWords labels "RET" [] = some (encodeWords .ret) ∧
      statementWords labels "HALT" [] = some (encodeWords .halt)) ∧
    (statementWords labels "LDI" [.reg rd, .value v] = some (encodeWords (.ldi rd w)) ∧
      statementWords labels "LD" [.reg rd, .memValue v] = some (encodeWords (.ldDirect rd w)) ∧
      statementWords labels "LD" [.reg rd, .memReg rs] = some (encodeWords (.ldIndirect rd rs)) ∧
      statementWords labels "ST" [.memValue v, .reg rs] = some (encodeWords (.stDirect w rs)) ∧
      statementWords labels "ST" [.memReg rd, .reg rs] = some (encodeWords (.stIndirect rd rs)) ∧
      statementWords labels "MOV" [.reg rd, .reg rs] = some (encodeWords (.mov rd rs))) ∧
    (statementWords labels "ADD" [.reg rd, .reg rs] = some (encodeWords (.add rd rs)) ∧
      statementWords labels "SUB" [.reg rd, .reg rs] = some (encodeWords (.sub rd rs)) ∧
      statementWords labels "MUL" [.reg rd, .reg rs] = some (encodeWords (.mul rd rs)) ∧
      statementWords labels "DIV" [.reg rd, .reg rs] = some (encodeWords (.div rd rs)) ∧
      statementWords labels "AND" [.reg rd, .reg rs] = some (encodeWords (.and rd rs)) ∧
      statementWords labels "OR" [.reg rd, .reg rs] = some (encodeWords (.or rd rs)) ∧
      statementWords labels "XOR" [.reg rd, .reg rs] = some (encodeWords (.xor rd rs)) ∧
      statementWords labels "SHL" [.reg rd, .reg rs] = some (encodeWords (.shl rd rs)) ∧
      statementWords labels "SHR" [.reg rd, .reg rs] = some (encodeWords (.shr rd rs)) ∧
      statementWords labels "SAR" [.reg rd, .reg rs] = some (encodeWords (.sar rd rs)) ∧
      statementWords labels "CMP" [.reg rd, .reg rs] = some (encodeWords (.cmp rd rs))) ∧
    (statementWords labels "INC" [.reg rd] = some (encodeWords (.inc rd)) ∧
      statementWords labels "DEC" [.reg rd] = some (encodeWords (.dec rd)) ∧
      statementWords labels "NOT" [.reg rd] = some (encodeWords (.not rd)) ∧
      statementWords labels "POP" [.reg rd] = some (encodeWords (.pop rd)) ∧
      statementWords labels "PUSH" [.reg rs] = some (encodeWords (.push rs)) ∧
      statementWords labels "ADDI" [.reg rd, .value v] = some (encodeWords (.addi rd w)) ∧
      statementWords labels "SUBI" [.reg rd, .value v] = some (encodeWords (.subi rd w))) ∧
    (statementWords labels "BEQ" [.value v] = some (encodeWords (.beq w)) ∧
      statementWords labels "BNE" [.value v] = some (encodeWords (.bne w)) ∧
      statementWords labels "BGT" [.value v] = some (encodeWords (.bgt w)) ∧
      statementWords labels "BLT" [.value v] = some (encodeWords (.blt w)) ∧
      statementWords labels "BGE" [.value v] = some (encodeWords (.bge w)) ∧
      statementWords labels "BLE" [.value v] = some (encodeWords (.ble w)) ∧
      statementWords labels "BCS" [.value v] = some (encodeWords (.bcs w)) ∧
      statementWords labels "BCC" [.value v] = some (encodeWords (.bcc w)) ∧
      statementWords labels "JMP" [.value v] = some (encodeWords (.jmp w)) ∧
      statementWords labels "CALL" [.value v] = some (encodeWords (.call w)))) ∧
  (∀ (labels : List (List Char × Word)) (mnemonic : List Char) (operands : List Operand) (ws : List Word),
    itemWords labels (.instruction mnemonic operands) = some ws →
    (∃ i, ws = encodeWords i) ∧
    mnemonic ∈ (["LDI", "LD", "ST", "MOV", "ADD", "SUB", "MUL", "DIV", "INC", "DEC", "ADDI", "SUBI"] ++
      ["AND", "OR", "XOR", "NOT", "SHL", "SHR", "SAR", "CMP", "BEQ", "BNE", "BGT", "BLT", "BGE", "BLE", "BCS", "BCC"] ++
      ["JMP", "PUSH", "POP", "CALL", "RET", "NOP", "HALT"]).map String.toList) ∧
  (∀ (labels : List (List Char × Word)) (n : Int), -32768 ≤ n → n ≤ 65535 →
    ∃ w, valueWord labels (.literal n) = some w ∧ (w.toNat : Int) = n % 65536) ∧
  (∀ (labels : List (List Char × Word)) (name : List Char),
    valueWord labels (.label name) = labels.lookup name)

/-- 30_encoding.md section 4 (R101, R102) and 70_reset_and_hazards.md section 2 (R243): `.WORD` emits its values and
`.STRING` its characters and a terminator 0x0000; and the words of unlabelled lines stand at consecutive addresses from the
last `.ORG` on, up to the last address of storage. -/
def Obligations.AssembledWordsStandAtConsecutiveAddresses : Prop :=
  (∀ (labels : List (List Char × Word)) (vs : List Value) (ws : List Word),
    itemWords labels (.words vs) = some ws ↔ vs.map (valueWord labels) = ws.map some) ∧
  (∀ (labels : List (List Char × Word)) (cs : List Char), ∃ ws, itemWords labels (.string cs) = some (ws ++ [0x0000]) ∧
    ws.map BitVec.toNat = cs.map (fun c => c.toNat % 65536)) ∧
  (∀ (n : Int) (items : List Item) (wss : List (List Word)), 0 ≤ n → n + wss.flatten.length ≤ 0xF800 →
    (∀ v, .origin v ∉ items) → items.map (itemWords []) = wss.map some →
    assembleLines (⟨none, some (.origin (.literal n))⟩ :: items.map (fun item => ⟨none, some item⟩)) =
      some (imageAt (BitVec.ofInt 16 n) wss.flatten))

/-- 30_encoding.md section 4 (R97, R99, R102): in a program that has an image, every label names the address of the next
word placed after it, whatever stands between, an `.ORG` included: the image is the words of the lines above the label and
then those of the lines from the label on, and the label stands for the address of the first of these. (Which programs
have no image, that the case of a label's name counts, and what a label names that no word follows, are the model's
choices, log entries 33, 38 and 40.) -/
def Obligations.LabelsNameTheNextWord : Prop :=
  ∀ (above below : List Line) (name : List Char) (item : Option Item) (image : Image),
    assembleLines (above ++ ⟨some name, item⟩ :: below) = some image →
    ∃ upper lower, placeLines (labelTable (above ++ ⟨some name, item⟩ :: below)) none above = some upper ∧
      image = upper ++ lower ∧
      ∀ cell rest, lower = cell :: rest →
        valueWord (labelTable (above ++ ⟨some name, item⟩ :: below)) (.label name) = some cell.1
end

