-- ==== Sys2Proof/Laws/State.lean ====
section
/-! SUPPORT. What each update of the state leaves in each field: one lemma per field per update. -/

namespace Sys2Proof.Machine

@[simp] theorem State.setReg_regs (s : State) (r : Reg) (v : Word) : (s.setReg r v).regs = s.regs.set r v := rfl
@[simp] theorem State.setReg_pc (s : State) (r : Reg) (v : Word) : (s.setReg r v).pc = s.pc := rfl
@[simp] theorem State.setReg_ir (s : State) (r : Reg) (v : Word) : (s.setReg r v).ir = s.ir := rfl
@[simp] theorem State.setReg_flags (s : State) (r : Reg) (v : Word) : (s.setReg r v).flags = s.flags := rfl
@[simp] theorem State.setReg_mem (s : State) (r : Reg) (v : Word) : (s.setReg r v).mem = s.mem := rfl
@[simp] theorem State.setReg_halted (s : State) (r : Reg) (v : Word) : (s.setReg r v).halted = s.halted := rfl
@[simp] theorem State.setReg_cycle (s : State) (r : Reg) (v : Word) : (s.setReg r v).cycle = s.cycle := rfl
@[simp] theorem State.setReg_out (s : State) (r : Reg) (v : Word) : (s.setReg r v).out = s.out := rfl
@[simp] theorem State.setReg_inp (s : State) (r : Reg) (v : Word) : (s.setReg r v).inp = s.inp := rfl
@[simp] theorem State.setReg_eof (s : State) (r : Reg) (v : Word) : (s.setReg r v).eof = s.eof := rfl
@[simp] theorem State.setReg_draws (s : State) (r : Reg) (v : Word) : (s.setReg r v).draws = s.draws := rfl

@[simp] theorem State.setFlags_regs (s : State) (f : Flags) : (s.setFlags f).regs = s.regs := rfl
@[simp] theorem State.setFlags_pc (s : State) (f : Flags) : (s.setFlags f).pc = s.pc := rfl
@[simp] theorem State.setFlags_ir (s : State) (f : Flags) : (s.setFlags f).ir = s.ir := rfl
@[simp] theorem State.setFlags_flags (s : State) (f : Flags) : (s.setFlags f).flags = f := rfl
@[simp] theorem State.setFlags_mem (s : State) (f : Flags) : (s.setFlags f).mem = s.mem := rfl
@[simp] theorem State.setFlags_halted (s : State) (f : Flags) : (s.setFlags f).halted = s.halted := rfl
@[simp] theorem State.setFlags_cycle (s : State) (f : Flags) : (s.setFlags f).cycle = s.cycle := rfl
@[simp] theorem State.setFlags_out (s : State) (f : Flags) : (s.setFlags f).out = s.out := rfl
@[simp] theorem State.setFlags_inp (s : State) (f : Flags) : (s.setFlags f).inp = s.inp := rfl
@[simp] theorem State.setFlags_eof (s : State) (f : Flags) : (s.setFlags f).eof = s.eof := rfl
@[simp] theorem State.setFlags_draws (s : State) (f : Flags) : (s.setFlags f).draws = s.draws := rfl
@[simp] theorem State.setFlags_reg (s : State) (f : Flags) (x : Reg) : (s.setFlags f).reg x = s.reg x := rfl

@[simp] theorem State.setMem_regs (s : State) (m : Memory) : (s.setMem m).regs = s.regs := rfl
@[simp] theorem State.setMem_pc (s : State) (m : Memory) : (s.setMem m).pc = s.pc := rfl
@[simp] theorem State.setMem_ir (s : State) (m : Memory) : (s.setMem m).ir = s.ir := rfl
@[simp] theorem State.setMem_flags (s : State) (m : Memory) : (s.setMem m).flags = s.flags := rfl
@[simp] theorem State.setMem_mem (s : State) (m : Memory) : (s.setMem m).mem = m := rfl
@[simp] theorem State.setMem_halted (s : State) (m : Memory) : (s.setMem m).halted = s.halted := rfl
@[simp] theorem State.setMem_cycle (s : State) (m : Memory) : (s.setMem m).cycle = s.cycle := rfl
@[simp] theorem State.setMem_out (s : State) (m : Memory) : (s.setMem m).out = s.out := rfl
@[simp] theorem State.setMem_inp (s : State) (m : Memory) : (s.setMem m).inp = s.inp := rfl
@[simp] theorem State.setMem_eof (s : State) (m : Memory) : (s.setMem m).eof = s.eof := rfl
@[simp] theorem State.setMem_draws (s : State) (m : Memory) : (s.setMem m).draws = s.draws := rfl
@[simp] theorem State.setMem_reg (s : State) (m : Memory) (x : Reg) : (s.setMem m).reg x = s.reg x := rfl

@[simp] theorem State.loadIr_regs (s : State) (w : Word) : (s.loadIr w).regs = s.regs := rfl
@[simp] theorem State.loadIr_pc (s : State) (w : Word) : (s.loadIr w).pc = s.pc := rfl
@[simp] theorem State.loadIr_ir (s : State) (w : Word) : (s.loadIr w).ir = w := rfl
@[simp] theorem State.loadIr_flags (s : State) (w : Word) : (s.loadIr w).flags = s.flags := rfl
@[simp] theorem State.loadIr_mem (s : State) (w : Word) : (s.loadIr w).mem = s.mem := rfl
@[simp] theorem State.loadIr_halted (s : State) (w : Word) : (s.loadIr w).halted = s.halted := rfl
@[simp] theorem State.loadIr_cycle (s : State) (w : Word) : (s.loadIr w).cycle = s.cycle := rfl
@[simp] theorem State.loadIr_out (s : State) (w : Word) : (s.loadIr w).out = s.out := rfl
@[simp] theorem State.loadIr_inp (s : State) (w : Word) : (s.loadIr w).inp = s.inp := rfl
@[simp] theorem State.loadIr_eof (s : State) (w : Word) : (s.loadIr w).eof = s.eof := rfl
@[simp] theorem State.loadIr_draws (s : State) (w : Word) : (s.loadIr w).draws = s.draws := rfl
@[simp] theorem State.loadIr_reg (s : State) (w : Word) (x : Reg) : (s.loadIr w).reg x = s.reg x := rfl

@[simp] theorem State.emit_regs (s : State) (e : OutEvent) : (s.emit e).regs = s.regs := rfl
@[simp] theorem State.emit_pc (s : State) (e : OutEvent) : (s.emit e).pc = s.pc := rfl
@[simp] theorem State.emit_ir (s : State) (e : OutEvent) : (s.emit e).ir = s.ir := rfl
@[simp] theorem State.emit_flags (s : State) (e : OutEvent) : (s.emit e).flags = s.flags := rfl
@[simp] theorem State.emit_mem (s : State) (e : OutEvent) : (s.emit e).mem = s.mem := rfl
@[simp] theorem State.emit_halted (s : State) (e : OutEvent) : (s.emit e).halted = s.halted := rfl
@[simp] theorem State.emit_cycle (s : State) (e : OutEvent) : (s.emit e).cycle = s.cycle := rfl
@[simp] theorem State.emit_out (s : State) (e : OutEvent) : (s.emit e).out = s.out ++ [e] := rfl
@[simp] theorem State.emit_inp (s : State) (e : OutEvent) : (s.emit e).inp = s.inp := rfl
@[simp] theorem State.emit_eof (s : State) (e : OutEvent) : (s.emit e).eof = s.eof := rfl
@[simp] theorem State.emit_draws (s : State) (e : OutEvent) : (s.emit e).draws = s.draws := rfl
@[simp] theorem State.emit_reg (s : State) (e : OutEvent) (x : Reg) : (s.emit e).reg x = s.reg x := rfl

@[simp] theorem State.setInput_regs (s : State) (bs : List Byte) : (s.setInput bs).regs = s.regs := rfl
@[simp] theorem State.setInput_pc (s : State) (bs : List Byte) : (s.setInput bs).pc = s.pc := rfl
@[simp] theorem State.setInput_ir (s : State) (bs : List Byte) : (s.setInput bs).ir = s.ir := rfl
@[simp] theorem State.setInput_flags (s : State) (bs : List Byte) : (s.setInput bs).flags = s.flags := rfl
@[simp] theorem State.setInput_mem (s : State) (bs : List Byte) : (s.setInput bs).mem = s.mem := rfl
@[simp] theorem State.setInput_halted (s : State) (bs : List Byte) : (s.setInput bs).halted = s.halted := rfl
@[simp] theorem State.setInput_cycle (s : State) (bs : List Byte) : (s.setInput bs).cycle = s.cycle := rfl
@[simp] theorem State.setInput_out (s : State) (bs : List Byte) : (s.setInput bs).out = s.out := rfl
@[simp] theorem State.setInput_inp (s : State) (bs : List Byte) : (s.setInput bs).inp = bs := rfl
@[simp] theorem State.setInput_eof (s : State) (bs : List Byte) : (s.setInput bs).eof = s.eof := rfl
@[simp] theorem State.setInput_draws (s : State) (bs : List Byte) : (s.setInput bs).draws = s.draws := rfl
@[simp] theorem State.setInput_reg (s : State) (bs : List Byte) (x : Reg) : (s.setInput bs).reg x = s.reg x := rfl

@[simp] theorem State.provideInput_regs (s : State) (bs : List Byte) : (s.provideInput bs).regs = s.regs := rfl
@[simp] theorem State.provideInput_pc (s : State) (bs : List Byte) : (s.provideInput bs).pc = s.pc := rfl
@[simp] theorem State.provideInput_ir (s : State) (bs : List Byte) : (s.provideInput bs).ir = s.ir := rfl
@[simp] theorem State.provideInput_flags (s : State) (bs : List Byte) : (s.provideInput bs).flags = s.flags := rfl
@[simp] theorem State.provideInput_mem (s : State) (bs : List Byte) : (s.provideInput bs).mem = s.mem := rfl
@[simp] theorem State.provideInput_halted (s : State) (bs : List Byte) : (s.provideInput bs).halted = s.halted := rfl
@[simp] theorem State.provideInput_cycle (s : State) (bs : List Byte) : (s.provideInput bs).cycle = s.cycle := rfl
@[simp] theorem State.provideInput_out (s : State) (bs : List Byte) : (s.provideInput bs).out = s.out := rfl
@[simp] theorem State.provideInput_inp (s : State) (bs : List Byte) : (s.provideInput bs).inp = s.inp ++ bs := rfl
@[simp] theorem State.provideInput_eof (s : State) (bs : List Byte) : (s.provideInput bs).eof = s.eof := rfl
@[simp] theorem State.provideInput_draws (s : State) (bs : List Byte) : (s.provideInput bs).draws = s.draws := rfl
@[simp] theorem State.provideInput_reg (s : State) (bs : List Byte) (x : Reg) : (s.provideInput bs).reg x = s.reg x := rfl

@[simp] theorem State.drawn_regs (s : State) (k : Nat) : (s.drawn k).regs = s.regs := rfl
@[simp] theorem State.drawn_pc (s : State) (k : Nat) : (s.drawn k).pc = s.pc := rfl
@[simp] theorem State.drawn_ir (s : State) (k : Nat) : (s.drawn k).ir = s.ir := rfl
@[simp] theorem State.drawn_flags (s : State) (k : Nat) : (s.drawn k).flags = s.flags := rfl
@[simp] theorem State.drawn_mem (s : State) (k : Nat) : (s.drawn k).mem = s.mem := rfl
@[simp] theorem State.drawn_halted (s : State) (k : Nat) : (s.drawn k).halted = s.halted := rfl
@[simp] theorem State.drawn_cycle (s : State) (k : Nat) : (s.drawn k).cycle = s.cycle := rfl
@[simp] theorem State.drawn_out (s : State) (k : Nat) : (s.drawn k).out = s.out := rfl
@[simp] theorem State.drawn_inp (s : State) (k : Nat) : (s.drawn k).inp = s.inp := rfl
@[simp] theorem State.drawn_eof (s : State) (k : Nat) : (s.drawn k).eof = s.eof := rfl
@[simp] theorem State.drawn_draws (s : State) (k : Nat) : (s.drawn k).draws = s.draws + k := rfl
@[simp] theorem State.drawn_reg (s : State) (k : Nat) (x : Reg) : (s.drawn k).reg x = s.reg x := rfl

@[simp] theorem State.retire_regs (s : State) (a : Word) : (s.retire a).regs = s.regs := rfl
@[simp] theorem State.retire_pc (s : State) (a : Word) : (s.retire a).pc = a := rfl
@[simp] theorem State.retire_ir (s : State) (a : Word) : (s.retire a).ir = s.ir := rfl
@[simp] theorem State.retire_flags (s : State) (a : Word) : (s.retire a).flags = s.flags := rfl
@[simp] theorem State.retire_mem (s : State) (a : Word) : (s.retire a).mem = s.mem := rfl
@[simp] theorem State.retire_halted (s : State) (a : Word) : (s.retire a).halted = s.halted := rfl
@[simp] theorem State.retire_cycle (s : State) (a : Word) : (s.retire a).cycle = s.cycle + 1 := rfl
@[simp] theorem State.retire_out (s : State) (a : Word) : (s.retire a).out = s.out := rfl
@[simp] theorem State.retire_inp (s : State) (a : Word) : (s.retire a).inp = s.inp := rfl
@[simp] theorem State.retire_eof (s : State) (a : Word) : (s.retire a).eof = s.eof := rfl
@[simp] theorem State.retire_draws (s : State) (a : Word) : (s.retire a).draws = s.draws := rfl
@[simp] theorem State.retire_reg (s : State) (a : Word) (x : Reg) : (s.retire a).reg x = s.reg x := rfl

@[simp] theorem State.halt_regs (s : State) : (s.halt).regs = s.regs := rfl
@[simp] theorem State.halt_pc (s : State) : (s.halt).pc = s.pc := rfl
@[simp] theorem State.halt_ir (s : State) : (s.halt).ir = s.ir := rfl
@[simp] theorem State.halt_flags (s : State) : (s.halt).flags = s.flags := rfl
@[simp] theorem State.halt_mem (s : State) : (s.halt).mem = s.mem := rfl
@[simp] theorem State.halt_halted (s : State) : (s.halt).halted = true := rfl
@[simp] theorem State.halt_cycle (s : State) : (s.halt).cycle = s.cycle + 1 := rfl
@[simp] theorem State.halt_out (s : State) : (s.halt).out = s.out := rfl
@[simp] theorem State.halt_inp (s : State) : (s.halt).inp = s.inp := rfl
@[simp] theorem State.halt_eof (s : State) : (s.halt).eof = s.eof := rfl
@[simp] theorem State.halt_draws (s : State) : (s.halt).draws = s.draws := rfl
@[simp] theorem State.halt_reg (s : State) (x : Reg) : (s.halt).reg x = s.reg x := rfl

@[simp] theorem State.decrementSp_regs (s : State) : (s.decrementSp).regs = s.regs.set .r7 (s.reg .r7 - 1) := rfl
@[simp] theorem State.decrementSp_pc (s : State) : (s.decrementSp).pc = s.pc := rfl
@[simp] theorem State.decrementSp_ir (s : State) : (s.decrementSp).ir = s.ir := rfl
@[simp] theorem State.decrementSp_flags (s : State) : (s.decrementSp).flags = s.flags := rfl
@[simp] theorem State.decrementSp_mem (s : State) : (s.decrementSp).mem = s.mem := rfl
@[simp] theorem State.decrementSp_halted (s : State) : (s.decrementSp).halted = s.halted := rfl
@[simp] theorem State.decrementSp_cycle (s : State) : (s.decrementSp).cycle = s.cycle := rfl
@[simp] theorem State.decrementSp_out (s : State) : (s.decrementSp).out = s.out := rfl
@[simp] theorem State.decrementSp_inp (s : State) : (s.decrementSp).inp = s.inp := rfl
@[simp] theorem State.decrementSp_eof (s : State) : (s.decrementSp).eof = s.eof := rfl
@[simp] theorem State.decrementSp_draws (s : State) : (s.decrementSp).draws = s.draws := rfl

@[simp] theorem State.incrementSp_regs (s : State) : (s.incrementSp).regs = s.regs.set .r7 (s.reg .r7 + 1) := rfl
@[simp] theorem State.incrementSp_pc (s : State) : (s.incrementSp).pc = s.pc := rfl
@[simp] theorem State.incrementSp_ir (s : State) : (s.incrementSp).ir = s.ir := rfl
@[simp] theorem State.incrementSp_flags (s : State) : (s.incrementSp).flags = s.flags := rfl
@[simp] theorem State.incrementSp_mem (s : State) : (s.incrementSp).mem = s.mem := rfl
@[simp] theorem State.incrementSp_halted (s : State) : (s.incrementSp).halted = s.halted := rfl
@[simp] theorem State.incrementSp_cycle (s : State) : (s.incrementSp).cycle = s.cycle := rfl
@[simp] theorem State.incrementSp_out (s : State) : (s.incrementSp).out = s.out := rfl
@[simp] theorem State.incrementSp_inp (s : State) : (s.incrementSp).inp = s.inp := rfl
@[simp] theorem State.incrementSp_eof (s : State) : (s.incrementSp).eof = s.eof := rfl
@[simp] theorem State.incrementSp_draws (s : State) : (s.incrementSp).draws = s.draws := rfl

end Sys2Proof.Machine
end

