-- ==== Sys2Proof/Laws/Registers.lean ====
section
/-! SUPPORT. The laws of the register file: a read after a write (spec/10_state.md R20, R21). -/

namespace Sys2Proof.Machine

@[simp] theorem RegFile.get_set_same (f : RegFile) (r : Reg) (v : Word) : (f.set r v).get r = v := by
  cases r <;> rfl

theorem RegFile.get_set_other (f : RegFile) {r q : Reg} (v : Word) (h : q ≠ r) : (f.set r v).get q = f.get q := by
  cases r <;> cases q <;> first | rfl | exact absurd rfl h

@[simp] theorem RegFile.set_set (f : RegFile) (r : Reg) (v w : Word) : (f.set r v).set r w = f.set r w := by
  cases r <;> rfl

@[simp] theorem State.reg_setReg_same (s : State) (r : Reg) (v : Word) : (s.setReg r v).reg r = v :=
  RegFile.get_set_same _ _ _

theorem State.reg_setReg_other (s : State) {r q : Reg} (v : Word) (h : q ≠ r) : (s.setReg r v).reg q = s.reg q :=
  RegFile.get_set_other _ _ h

/-- A read after a write, in one line. -/
theorem State.reg_setReg (s : State) (r q : Reg) (v : Word) :
    (s.setReg r v).reg q = if q = r then v else s.reg q := by
  by_cases h : q = r
  · subst h; simp
  · simp [h, State.reg_setReg_other s v h]

@[simp] theorem State.decrementSp_reg_sp (s : State) : s.decrementSp.reg .r7 = s.reg .r7 - 1 := rfl

@[simp] theorem State.incrementSp_reg_sp (s : State) : s.incrementSp.reg .r7 = s.reg .r7 + 1 := rfl

theorem State.decrementSp_reg_other (s : State) {q : Reg} (h : q ≠ .r7) : s.decrementSp.reg q = s.reg q :=
  State.reg_setReg_other s _ h

theorem State.incrementSp_reg_other (s : State) {q : Reg} (h : q ≠ .r7) : s.incrementSp.reg q = s.reg q :=
  State.reg_setReg_other s _ h

/-- Two register files with the same contents are the same. -/
theorem RegFile.ext_get {f g : RegFile} (h : ∀ r, f.get r = g.get r) : f = g := by
  have h0 := h .r0; have h1 := h .r1; have h2 := h .r2; have h3 := h .r3
  have h4 := h .r4; have h5 := h .r5; have h6 := h .r6; have h7 := h .r7
  cases f; cases g
  simp_all [RegFile.get]

end Sys2Proof.Machine

namespace Sys2Proof

@[simp] theorem Reg.ofField_field (r : Reg) : Reg.ofField r.field = r := by cases r <;> rfl

@[simp] theorem Reg.field_ofField (f : BitVec 3) : (Reg.ofField f).field = f := by revert f; decide

end Sys2Proof
end

