-- ==== Sys2Proof/Laws/Encoding.lean ====
section
/-! SUPPORT. The laws of the byte order and of the fields of the instruction word (spec/30_encoding.md R81, R85;
spec/20_memory.md R52). -/

namespace Sys2Proof

@[simp] theorem joinBytes_lowByte_highByte (w : Word) : joinBytes (lowByte w) (highByte w) = w := by
  apply BitVec.eq_of_getLsbD_eq
  intro i hi
  simp only [joinBytes, lowByte, highByte, BitVec.getLsbD_append, BitVec.getLsbD_extractLsb']
  by_cases h : i < 8
  · simp [h]
  · simp [h, show i - 8 < 8 by omega, show 8 + (i - 8) = i by omega]

@[simp] theorem lowByte_joinBytes (l h : Byte) : lowByte (joinBytes l h) = l := by
  apply BitVec.eq_of_getLsbD_eq
  intro i hi
  rw [lowByte, joinBytes, BitVec.getLsbD_extractLsb', BitVec.getLsbD_append]
  simp [hi]

@[simp] theorem highByte_joinBytes (l h : Byte) : highByte (joinBytes l h) = h := by
  apply BitVec.eq_of_getLsbD_eq
  intro i hi
  rw [highByte, joinBytes, BitVec.getLsbD_extractLsb', BitVec.getLsbD_append]
  simp [hi]

/-- The four fields of the word packed from them. -/
theorem fields_packWord (op : BitVec 4) (rd rs : BitVec 3) (mode : BitVec 6) :
    opcodeField (packWord op rd rs mode) = op ∧ rdField (packWord op rd rs mode) = rd ∧
      rsField (packWord op rd rs mode) = rs ∧ modeField (packWord op rd rs mode) = mode := by
  refine ⟨?_, ?_, ?_, ?_⟩ <;> apply BitVec.eq_of_getLsbD_eq <;> intro i hi <;>
    simp only [opcodeField, rdField, rsField, modeField, packWord, BitVec.getLsbD_extractLsb', BitVec.getLsbD_or,
      BitVec.getLsbD_shiftLeft, BitVec.getLsbD_setWidth] <;>
    interval_cases i <;> simp

@[simp] theorem opcodeField_packWord (op : BitVec 4) (rd rs : BitVec 3) (mode : BitVec 6) :
    opcodeField (packWord op rd rs mode) = op := (fields_packWord op rd rs mode).1

@[simp] theorem rdField_packWord (op : BitVec 4) (rd rs : BitVec 3) (mode : BitVec 6) :
    rdField (packWord op rd rs mode) = rd := (fields_packWord op rd rs mode).2.1

@[simp] theorem rsField_packWord (op : BitVec 4) (rd rs : BitVec 3) (mode : BitVec 6) :
    rsField (packWord op rd rs mode) = rs := (fields_packWord op rd rs mode).2.2.1

@[simp] theorem modeField_packWord (op : BitVec 4) (rd rs : BitVec 3) (mode : BitVec 6) :
    modeField (packWord op rd rs mode) = mode := (fields_packWord op rd rs mode).2.2.2

/-- Every word is packed from its fields. -/
theorem packWord_fields (w : Word) : packWord (opcodeField w) (rdField w) (rsField w) (modeField w) = w := by
  apply BitVec.eq_of_getLsbD_eq
  intro i hi
  simp only [opcodeField, rdField, rsField, modeField, packWord, BitVec.getLsbD_extractLsb', BitVec.getLsbD_or,
    BitVec.getLsbD_shiftLeft, BitVec.getLsbD_setWidth]
  interval_cases i <;> simp

/-- The encoding of an instruction has the length R83 gives it. -/
@[simp] theorem encodeWords_length (i : Instr) : (encodeWords i).length = wordCount i := by cases i <;> rfl

end Sys2Proof
end

