-- ==== Sys2Proof/Laws/Assembler.lean ====
section
/-! SUPPORT. The laws of the assembler: what its items place, and that its two passes agree (spec/30_encoding.md R97 to
R103). -/

namespace Sys2Proof.Machine

@[simp] theorem valueWord_label (labels : List (List Char × Word)) (name : List Char) :
    valueWord labels (.label name) = labels.lookup name := rfl

@[simp] theorem imageAt_nil (a : Word) : imageAt a [] = [] := rfl

@[simp] theorem imageAt_cons (a w : Word) (ws : List Word) : imageAt a (w :: ws) = (a, w) :: imageAt (a + 1) ws := rfl

/-- Words placed after words. -/
theorem imageAt_append (ws us : List Word) : ∀ a : Nat,
    imageAt (BitVec.ofNat 16 a) (ws ++ us) =
      imageAt (BitVec.ofNat 16 a) ws ++ imageAt (BitVec.ofNat 16 (a + ws.length)) us := by
  induction ws with
  | nil => intro a; rfl
  | cons w ws ih =>
    intro a
    have step : BitVec.ofNat 16 a + 1 = BitVec.ofNat 16 (a + 1) := by rw [BitVec.ofNat_add]; rfl
    rw [List.cons_append, imageAt_cons, imageAt_cons, step, ih (a + 1), List.cons_append, List.length_cons,
      show a + 1 + ws.length = a + (ws.length + 1) by omega]

/-- A shape that some mnemonic has is one of the two tables'. -/
theorem shapeOf_mem {mnemonic : List Char} {shape : OperandShape} (h : shapeOf mnemonic = some shape) :
    ∃ name, (name, shape) ∈ registerMnemonics ++ valueMnemonics ∧ name.toList = mnemonic := by
  unfold shapeOf at h
  cases hf : (registerMnemonics ++ valueMnemonics).find? fun entry => entry.1.toList == mnemonic with
  | none => rw [hf] at h; cases h
  | some entry =>
    rw [hf] at h
    cases h
    exact ⟨entry.1, List.mem_of_find?_eq_some hf, by simpa using List.find?_some hf⟩

/-- A value has a word in every table that has its label. -/
theorem valueWord_of_label_mem {labels others : List (List Char × Word)} {v : Value} {w : Word}
    (h : valueWord labels v = some w) (hl : ∀ name, labelOf v = some name → name ∈ others.map (·.1)) :
    ∃ u, valueWord others v = some u := by
  cases v with
  | literal n => exact ⟨w, h⟩
  | label name =>
    have hm := hl name rfl
    cases hu : others.lookup name with
    | some u => exact ⟨u, hu⟩
    | none =>
      obtain ⟨cell, hc, rfl⟩ := List.mem_map.mp hm
      have := List.lookup_eq_none_iff.mp hu cell hc
      simp at this

/-- The length of the instructions of a shape does not depend on their second word. -/
def EvenLength : OperandShape → Prop
  | .regValue build => ∀ rd a b, wordCount (build rd a) = wordCount (build rd b)
  | .value build => ∀ a b, wordCount (build a) = wordCount (build b)
  | _ => True

/-- Every mnemonic's shape is one of them (R83). -/
theorem evenLength_of_mem : ∀ entry ∈ registerMnemonics ++ valueMnemonics, EvenLength entry.2 := by
  simp [registerMnemonics, valueMnemonics, EvenLength, wordCount]

/-- An instruction that a statement selects has the length that every table with its labels gives it. -/
theorem buildInstr_wordCount {mnemonic : List Char} {shape : OperandShape} (hs : shapeOf mnemonic = some shape)
    {labels others : List (List Char × Word)} {operands : List Operand} {i : Instr}
    (h : buildInstr labels shape operands = some i)
    (hl : ∀ name ∈ labelsIn (.instruction mnemonic operands), name ∈ others.map (·.1)) :
    ∃ j, buildInstr others shape operands = some j ∧ wordCount j = wordCount i := by
  obtain ⟨_, hm, -⟩ := shapeOf_mem hs
  have value : ∀ {v : Value} {f : Word → Instr}, (∀ name, labelOf v = some name → name ∈ others.map (·.1)) →
      (valueWord labels v).map f = some i → (∀ a b, wordCount (f a) = wordCount (f b)) →
      ∃ j, (valueWord others v).map f = some j ∧ wordCount j = wordCount i := by
    intro v f hv hi hf
    obtain ⟨w, hw, rfl⟩ := Option.map_eq_some_iff.mp hi
    obtain ⟨u, hu⟩ := valueWord_of_label_mem hw hv
    exact ⟨f u, by rw [hu]; rfl, hf _ _⟩
  have even := evenLength_of_mem _ hm
  unfold buildInstr at h ⊢
  split at h
  case h_4 build rd v =>
    exact value (fun name hn => hl name (by simp [labelsIn, hn])) h (even rd)
  case h_5 build v =>
    exact value (fun name hn => hl name (by simp [labelsIn, hn])) h even
  case h_6 rd v => exact value (fun name hn => hl name (by simp [labelsIn, hn])) h fun _ _ => rfl
  case h_8 v rs => exact value (fun name hn => hl name (by simp [labelsIn, hn])) h fun _ _ => rfl
  case h_10 => cases h
  all_goals exact ⟨i, h, rfl⟩

theorem mapM_valueWord {labels others : List (List Char × Word)} : ∀ {vs : List Value} {ws : List Word},
    vs.mapM (valueWord labels) = some ws → (∀ name ∈ vs.filterMap labelOf, name ∈ others.map (·.1)) →
    ∃ us, vs.mapM (valueWord others) = some us ∧ us.length = ws.length := by
  intro vs
  induction vs with
  | nil => intro ws h _; cases h; exact ⟨[], rfl, rfl⟩
  | cons v vs ih =>
    intro ws h hl
    simp only [List.mapM_cons, bind, Option.bind_eq_some_iff, pure, Option.some.injEq] at h
    obtain ⟨w, hw, ws', hws, rfl⟩ := h
    obtain ⟨u, hu⟩ := valueWord_of_label_mem hw fun name hn => hl name (List.mem_filterMap.mpr ⟨v, by simp, hn⟩)
    obtain ⟨us, hus, hlen⟩ := ih hws fun name hn => hl name <| by
      obtain ⟨x, hx, hxn⟩ := List.mem_filterMap.mp hn
      exact List.mem_filterMap.mpr ⟨x, List.mem_cons_of_mem _ hx, hxn⟩
    exact ⟨u :: us, by simp [hu, hus], by simp [hlen]⟩

/-- An item that has words has their number as its size, whatever its labels stand for. -/
theorem itemSize_of_itemWords {labels : List (List Char × Word)} {item : Item} {ws : List Word}
    (h : itemWords labels item = some ws) : itemSize item = some ws.length := by
  have names : ∀ name ∈ labelsIn item, name ∈ ((labelsIn item).map fun name => (name, (0 : Word))).map (·.1) := by
    intro name hn
    exact List.mem_map.mpr ⟨(name, 0), List.mem_map.mpr ⟨name, hn, rfl⟩, rfl⟩
  cases item with
  | origin v =>
    obtain ⟨w, hw, rfl⟩ := Option.map_eq_some_iff.mp h
    obtain ⟨u, hu⟩ := valueWord_of_label_mem hw fun name hn => names name (by simp [labelsIn, hn])
    rw [itemSize, itemWords, hu]
    rfl
  | string cs => cases h; rfl
  | words vs =>
    obtain ⟨us, hus, hlen⟩ := mapM_valueWord h names
    rw [itemSize, itemWords, hus, Option.map_some, hlen]
  | instruction mnemonic operands =>
    simp only [itemWords] at h
    split at h
    · rename_i shape hs
      obtain ⟨i, hi, rfl⟩ := Option.map_eq_some_iff.mp h
      obtain ⟨j, hj, hlen⟩ := buildInstr_wordCount hs hi names
      simp only [itemSize, itemWords, hs, hj, Option.map_some, encodeWords_length, hlen]
    · cases h

theorem emits_of_itemWords {labels : List (List Char × Word)} {item : Item} {ws : List Word}
    (h : itemWords labels item = some ws) : emits item = !ws.isEmpty := by
  rw [emits, itemSize_of_itemWords h]
  cases ws <;> rfl

/-- What placing an item can do: nothing, where it has no words, or its words at the position, within storage. -/
theorem placeItem_some {labels : List (List Char × Word)} {at? : Option Nat} {item : Item} {cells : Image}
    (h : placeItem labels at? item = some cells) :
    (emits item = false ∧ cells = []) ∨
    ∃ a w ws, emits item = true ∧ at? = some a ∧ itemWords labels item = some (w :: ws) ∧
      a + (w :: ws).length ≤ 0xF800 ∧ cells = imageAt (BitVec.ofNat 16 a) (w :: ws) := by
  unfold placeItem at h
  split at h
  · rename_i hw
    cases h
    exact .inl ⟨emits_of_itemWords hw, rfl⟩
  · rename_i ws a hne hw
    split at h
    · rename_i hle
      cases h
      match ws, hne, hw, hle with
      | w :: ws, _, hw, hle => exact .inr ⟨a, w, ws, emits_of_itemWords hw, rfl, hw, hle, rfl⟩
      | [], hne, _, _ => exact (hne rfl).elim
    · cases h
  · cases h

/-- An item without words places none, wherever it stands. -/
theorem placeItem_empty {labels : List (List Char × Word)} (at? : Option Nat) {item : Item}
    (h : itemWords labels item = some []) : placeItem labels at? item = some [] := by
  unfold placeItem
  rw [h]

/-- An item whose words fit has them at the position. -/
theorem placeItem_fits {labels : List (List Char × Word)} {a : Nat} {item : Item} {ws : List Word}
    (h : itemWords labels item = some ws) (hle : a + ws.length ≤ 0xF800) :
    placeItem labels (some a) item = some (imageAt (BitVec.ofNat 16 a) ws) := by
  unfold placeItem
  rw [h]
  cases ws with
  | nil => rfl
  | cons w ws => exact if_pos hle

/-- What placing the lines from a position on can do. -/
theorem placeLines_cons {labels : List (List Char × Word)} {at? : Option Nat} {line : Line} {rest : List Line}
    {image : Image} : placeLines labels at? (line :: rest) = some image ↔
      (line.item = none ∧ placeLines labels at? rest = some image) ∨
      ∃ item cells lower, line.item = some item ∧ placeItem labels at? item = some cells ∧
        placeLines labels (positionAfter labels at? item) rest = some lower ∧ image = cells ++ lower := by
  rw [placeLines]
  cases hi : line.item with
  | none => simp
  | some item =>
    simp only [reduceCtorEq, false_and, false_or, Option.some.injEq]
    constructor
    · intro h
      split at h
      · rename_i cells lower hc hl
        cases h
        exact ⟨item, cells, lower, rfl, hc, hl, rfl⟩
      · cases h
    · rintro ⟨_, cells, lower, rfl, hc, hl, rfl⟩
      simp [hc, hl]

/-- Finding the labels of a line without an item and of those below it. -/
theorem labelsFrom_noItem (known : List (List Char × Word)) (at? : Option Nat) {line : Line} (rest : List Line)
    (h : line.item = none) : labelsFrom known at? (line :: rest) =
      ((labelsFrom known at? rest).1, labelled line (labelsFrom known at? rest).1 ++ (labelsFrom known at? rest).2) := by
  rw [labelsFrom, h]

/-- Finding the labels of a line with an item and of those below it. -/
theorem labelsFrom_item (known : List (List Char × Word)) (at? : Option Nat) {line : Line} (rest : List Line)
    {item : Item} (h : line.item = some item) :
    let below := labelsFrom known (positionAfter known at? item) rest
    let next := if emits item then at? else below.1
    labelsFrom known at? (line :: rest) = (next, labelled line next ++ below.2) := by
  rw [labelsFrom, h]

/-- The two passes agree: the address a label would name is the address at which the next word is placed. -/
theorem labelsFrom_next {labels : List (List Char × Word)} {lines : List Line} : ∀ {at? : Option Nat}
    {cell : Word × Word} {rest : Image}, placeLines labels at? lines = some (cell :: rest) →
    ∃ a, (labelsFrom labels at? lines).1 = some a ∧ cell.1 = BitVec.ofNat 16 a := by
  induction lines with
  | nil => intro at? cell rest h; cases h
  | cons line lines ih =>
    intro at? cell rest h
    rcases placeLines_cons.mp h with ⟨hi, hr⟩ | ⟨item, cells, lower, hi, hc, hr, himg⟩
    · rw [labelsFrom_noItem _ _ _ hi]; exact ih hr
    · rw [labelsFrom_item _ _ _ hi]
      rcases placeItem_some hc with ⟨he, rfl⟩ | ⟨a, w, ws, he, rfl, -, -, rfl⟩
      · simp only [he, Bool.false_eq_true, if_false]
        exact ih (by rw [hr, himg]; rfl)
      · cases himg
        exact ⟨a, by simp [he], rfl⟩

theorem labelled_mem {line : Line} {address : Option Nat} {entry : List Char × Word}
    (h : entry ∈ labelled line address) : line.label = some entry.1 := by
  unfold labelled at h
  split at h
  · rename_i name a hn
    rw [List.mem_singleton.mp h]
    exact hn
  · cases h

/-- The lines above and those below: their images follow each other, and so do their labels. -/
theorem placeLines_append {labels : List (List Char × Word)} {above below : List Line} : ∀ {at? : Option Nat}
    {image : Image}, placeLines labels at? (above ++ below) = some image →
    ∃ between upper lower first, placeLines labels at? above = some upper ∧ placeLines labels between below = some lower ∧
      image = upper ++ lower ∧
      (labelsFrom labels at? (above ++ below)).2 = first ++ (labelsFrom labels between below).2 ∧
      ∀ entry ∈ first, ∃ line ∈ above, line.label = some entry.1 := by
  induction above with
  | nil => intro at? image h; exact ⟨at?, [], image, [], rfl, h, rfl, rfl, by simp⟩
  | cons line above ih =>
    intro at? image h
    have named : ∀ {address first}, (∀ entry ∈ first, ∃ line ∈ above, line.label = some entry.1) →
        ∀ entry ∈ labelled line address ++ first, ∃ x ∈ line :: above, x.label = some entry.1 := by
      intro address first hf entry he
      rcases List.mem_append.mp he with he | he
      · exact ⟨line, by simp, labelled_mem he⟩
      · obtain ⟨x, hx, hn⟩ := hf entry he
        exact ⟨x, List.mem_cons_of_mem _ hx, hn⟩
    rw [List.cons_append] at h ⊢
    rcases placeLines_cons.mp h with ⟨hi, hr⟩ | ⟨item, cells, tail, hi, hc, hr, rfl⟩
    · obtain ⟨b, p, q, f, hp, hq, rfl, hf, hn⟩ := ih hr
      rw [labelsFrom_noItem _ _ _ hi, hf, ← List.append_assoc]
      exact ⟨b, p, q, _, placeLines_cons.mpr (.inl ⟨hi, hp⟩), hq, rfl, rfl, named hn⟩
    · obtain ⟨b, p, q, f, hp, hq, rfl, hf, hn⟩ := ih hr
      rw [labelsFrom_item _ _ _ hi, hf, ← List.append_assoc, ← List.append_assoc]
      exact ⟨b, cells ++ p, q, _, placeLines_cons.mpr (.inr ⟨item, cells, p, hi, hc, hp, rfl⟩), hq, rfl, rfl, named hn⟩

/-- The programs that have an image. -/
theorem assembleLines_some {lines : List Line} {image : Image} : assembleLines lines = some image ↔
    (lines.filterMap (·.label)).Nodup ∧ (labelsFrom (labelTable lines) none lines).2 = labelTable lines ∧
      placeLines (labelTable lines) none lines = some image ∧ (image.map (·.1)).Nodup := by
  simp only [assembleLines]
  split
  case isFalse h => exact ⟨nofun, fun ⟨h1, h2, _⟩ => absurd ⟨h1, h2⟩ h⟩
  case isTrue h =>
    cases hp : placeLines (labelTable lines) none lines with
    | none => simp
    | some placed =>
      simp only [Option.some.injEq]
      constructor
      · intro ht
        split at ht <;> cases ht
        exact ⟨h.1, h.2, rfl, by assumption⟩
      · rintro ⟨-, -, rfl, hn⟩
        exact if_pos hn

end Sys2Proof.Machine
end

