-- ==== Sys2Proof/Laws/Memory.lean ====
section
/-! SUPPORT. The laws of storage: a read after a write, and that every operation keeps the canonical form
(spec/20_memory.md R58, R60; spec/10_state.md R37). -/

namespace Sys2Proof.Machine

/-- A cell read after a cell write. -/
theorem Memory.readCell_writeCell (m : Memory) (k q : Nat) (v : Byte) :
    (m.writeCell k v).readCell q = if q = k then some v else m.readCell q := by
  induction m with
  | nil => simp [Memory.writeCell, Memory.readCell, eq_comm]
  | cons c m ih =>
    obtain ⟨j, b⟩ := c
    by_cases h1 : k < j
    · simp [Memory.writeCell, h1, Memory.readCell, eq_comm]
    · by_cases h2 : k = j
      · subst h2
        by_cases hq : q = k
        · subst hq; simp [Memory.writeCell, Memory.readCell]
        · simp [Memory.writeCell, Memory.readCell, hq, Ne.symm hq]
      · simp only [Memory.writeCell, h1, h2, if_false, Memory.readCell, ih]
        by_cases hj : j = q
        · subst hj; simp [Ne.symm h2]
        · simp [hj]

@[simp] theorem Memory.readCell_writeCell_same (m : Memory) (k : Nat) (v : Byte) :
    (m.writeCell k v).readCell k = some v := by simp [Memory.readCell_writeCell]

/-- The cells of a word write: the word's own two, and every other as before. -/
theorem Memory.readCell_writeWord (m : Memory) (a v : Word) (q : Nat) :
    (m.writeWord a v).readCell q =
      if q = highKey a then some (highByte v) else if q = lowKey a then some (lowByte v) else m.readCell q := by
  simp [Memory.writeWord, Memory.readCell_writeCell]

/-- Reading the word just written. -/
@[simp] theorem Memory.readWord_writeWord_same (m : Memory) (a v : Word) :
    (m.writeWord a v).readWord a = some v := by
  have h : lowKey a ≠ highKey a := by simp [lowKey, highKey]
  simp [Memory.readWord, Memory.readCell_writeWord, h]

/-- Reading any other word. -/
theorem Memory.readWord_writeWord_other (m : Memory) {a b : Word} (v : Word) (h : b ≠ a) :
    (m.writeWord a v).readWord b = m.readWord b := by
  have hn : b.toNat ≠ a.toNat := fun e => h (BitVec.eq_of_toNat_eq e)
  have h1 : lowKey b ≠ highKey a := by simp only [lowKey, highKey]; omega
  have h2 : lowKey b ≠ lowKey a := by simp only [lowKey]; omega
  have h3 : highKey b ≠ highKey a := by simp only [highKey]; omega
  have h4 : highKey b ≠ lowKey a := by simp only [lowKey, highKey]; omega
  simp [Memory.readWord, Memory.readCell_writeWord, h1, h2, h3, h4]

/-- The entries after a cell write: the new one, or one that was there. -/
theorem Memory.mem_writeCell {m : Memory} {k : Nat} {v : Byte} {c : Host.Cell} (h : c ∈ m.writeCell k v) :
    c = (k, v) ∨ c ∈ m := by
  induction m with
  | nil => simpa [Memory.writeCell] using h
  | cons d m ih =>
    obtain ⟨j, b⟩ := d
    simp only [Memory.writeCell] at h
    split at h
    · rcases List.mem_cons.mp h with h | h
      · exact .inl h
      · exact .inr h
    · split at h
      · rcases List.mem_cons.mp h with h | h
        · exact .inl h
        · exact .inr (List.mem_cons_of_mem _ h)
      · rcases List.mem_cons.mp h with h | h
        · exact .inr (h ▸ List.mem_cons_self)
        · exact (ih h).imp_right (List.mem_cons_of_mem _)

/-- A cell write keeps the keys in rising order. -/
theorem Memory.sorted_writeCell {m : Memory} (hm : m.Pairwise fun c d => c.1 < d.1) (k : Nat) (v : Byte) :
    (m.writeCell k v).Pairwise fun c d => c.1 < d.1 := by
  induction m with
  | nil => simp [Memory.writeCell]
  | cons d m ih =>
    obtain ⟨j, b⟩ := d
    obtain ⟨hd, htail⟩ := List.pairwise_cons.mp hm
    simp only [Memory.writeCell]
    split
    case isTrue h =>
      refine List.pairwise_cons.mpr ⟨fun c hc => ?_, hm⟩
      rcases List.mem_cons.mp hc with rfl | hc
      · exact h
      · exact Nat.lt_trans h (hd c hc)
    case isFalse h =>
      split
      case isTrue h2 =>
        subst h2
        exact List.pairwise_cons.mpr ⟨hd, htail⟩
      case isFalse h2 =>
        refine List.pairwise_cons.mpr ⟨fun c hc => ?_, ih htail⟩
        rcases Memory.mem_writeCell hc with rfl | hc
        · show j < k
          omega
        · exact hd c hc

/-- A key that is listed has its entry. -/
theorem Memory.mem_of_readCell {m : Memory} {k : Nat} {v : Byte} (h : m.readCell k = some v) : (k, v) ∈ m := by
  induction m with
  | nil => simp [Memory.readCell] at h
  | cons d m ih =>
    obtain ⟨j, b⟩ := d
    by_cases hj : j = k
    · subst hj
      simp [Memory.readCell] at h
      simp [h]
    · simp [Memory.readCell, hj] at h
      exact List.mem_cons_of_mem _ (ih h)

/-- An entry's key reads as some value. -/
theorem Memory.readCell_isSome_of_mem {m : Memory} {c : Host.Cell} (h : c ∈ m) : (m.readCell c.1).isSome = true := by
  induction m with
  | nil => simp at h
  | cons d m ih =>
    obtain ⟨j, b⟩ := d
    rcases List.mem_cons.mp h with rfl | h
    · simp [Memory.readCell]
    · by_cases hj : j = c.1
      · simp [Memory.readCell, hj]
      · simpa [Memory.readCell, hj] using ih h

/-- Storage in its canonical form is determined by what it reads as. -/
theorem Memory.ext_readCell {m n : Memory} (hm : m.Pairwise fun c d => c.1 < d.1)
    (hn : n.Pairwise fun c d => c.1 < d.1) (h : ∀ k, m.readCell k = n.readCell k) : m = n := by
  induction m generalizing n with
  | nil =>
    cases n with
    | nil => rfl
    | cons d n => obtain ⟨j, b⟩ := d; simpa [Memory.readCell] using h j
  | cons c m ih =>
    obtain ⟨k, v⟩ := c
    cases n with
    | nil => simpa [Memory.readCell] using h k
    | cons d n =>
      obtain ⟨j, b⟩ := d
      obtain ⟨hc, hmTail⟩ := List.pairwise_cons.mp hm
      obtain ⟨hd, hnTail⟩ := List.pairwise_cons.mp hn
      have notIn : ∀ {l : Memory} {i q : Nat}, (∀ e ∈ l, i < e.1) → q ≤ i → l.readCell q = none := by
        intro l i q hl hq
        cases hr : l.readCell q with
        | none => rfl
        | some u => exact absurd (hl _ (Memory.mem_of_readCell hr)) (by simpa using hq)
      have hkj : k = j := by
        rcases Nat.lt_trichotomy k j with hlt | heq | hgt
        · have hk := h k
          rw [Memory.readCell, if_pos rfl, Memory.readCell, if_neg (by omega), notIn hd (by omega)] at hk
          exact absurd hk (by simp)
        · exact heq
        · have hj := h j
          rw [Memory.readCell, if_neg (by omega), notIn hc (by omega), Memory.readCell, if_pos rfl] at hj
          exact absurd hj (by simp)
      subst hkj
      have hv : v = b := by simpa [Memory.readCell] using h k
      subst hv
      congr 1
      refine ih hmTail hnTail fun q => ?_
      by_cases hq : k = q
      · subst hq
        rw [notIn hc (Nat.le_refl _), notIn hd (Nat.le_refl _)]
      · simpa [Memory.readCell, hq] using h q

@[simp] theorem partnerKey_lowKey (a : Word) : partnerKey (lowKey a) = highKey a := by
  have h : 2 * a.toNat % 2 = 0 := by omega
  simp [partnerKey, lowKey, highKey, h]

@[simp] theorem partnerKey_highKey (a : Word) : partnerKey (highKey a) = lowKey a := by
  simp [partnerKey, lowKey, highKey]

/-- Writing a word into storage keeps the canonical form. -/
theorem Memory.wf_writeWord {m : Memory} (hm : m.wf) {a : Word} (ha : InStorage a) (v : Word) :
    (m.writeWord a v).wf := by
  obtain ⟨hs, hb, hp⟩ := hm
  have hmem : ∀ c ∈ m.writeWord a v, c.1 = lowKey a ∨ c.1 = highKey a ∨ c ∈ m := by
    intro c hc
    rcases Memory.mem_writeCell hc with rfl | hc
    · exact .inr (.inl rfl)
    · rcases Memory.mem_writeCell hc with rfl | hc
      · exact .inl rfl
      · exact .inr (.inr hc)
  refine ⟨Memory.sorted_writeCell (Memory.sorted_writeCell hs _ _) _ _, fun c hc => ?_, fun c hc => ?_⟩
  · rcases hmem c hc with h | h | h
    · rw [h]; simp only [lowKey]; have := ha; omega
    · rw [h]; simp only [highKey]; have := ha; omega
    · exact hb c h
  · rw [Memory.readCell_writeWord]
    rcases hmem c hc with h | h | h
    · simp [h]
    · rw [h, partnerKey_highKey]
      split <;> simp
    · split
      · rfl
      · split
        · rfl
        · exact hp c h

/-- The loader's write keeps the canonical form. -/
theorem Memory.wf_place {m : Memory} (hm : m.wf) (a v : Word) : (m.place a v).wf := by
  unfold Memory.place
  split
  case isTrue h => exact Memory.wf_writeWord hm h v
  case isFalse => exact hm

/-- Memory holding an image is in canonical form. -/
theorem Memory.wf_ofImage (image : Image) : (Memory.ofImage image).wf := by
  induction image with
  | nil => decide
  | cons c image ih => exact Memory.wf_place ih _ _

/-- In canonical form an address of the I/O region has no word. -/
theorem Memory.readWord_io {m : Memory} (hm : m.wf) {a : Word} (ha : ¬InStorage a) : m.readWord a = none := by
  have h : m.readCell (lowKey a) = none := by
    cases hr : m.readCell (lowKey a) with
    | none => rfl
    | some v =>
      have hb := hm.2.1 _ (Memory.mem_of_readCell hr)
      simp only [lowKey] at hb
      exact absurd (show InStorage a by show a.toNat < 0xF800; omega) ha
  simp [Memory.readWord, h]

/-- The words of an image, once loaded. -/
theorem Memory.readWord_ofImage (image : Image) (a : Word) :
    (Memory.ofImage image).readWord a = if InStorage a then image.lookup a else none := by
  induction image with
  | nil => simp [Memory.ofImage, Memory.readWord, Memory.readCell]
  | cons c image ih =>
    obtain ⟨b, v⟩ := c
    simp only [Memory.ofImage, Memory.place]
    by_cases hab : a = b
    · subst hab
      by_cases ha : InStorage a
      · simp [ha]
      · simp [ha, ih]
    · have hne : (a == b) = false := by simpa using hab
      split
      · rw [Memory.readWord_writeWord_other _ _ hab, ih]
        simp [List.lookup, hne]
      · rw [ih]
        simp [List.lookup, hne]

/-- An image kept as bytes gives its words back. -/
theorem wordsOfBytes_bytesOfWords (ws : List Word) : wordsOfBytes (bytesOfWords ws) = some ws := by
  induction ws with
  | nil => rfl
  | cons w ws ih =>
    show (wordsOfBytes (bytesOfWords ws)).map _ = _
    rw [ih, Option.map_some, joinBytes_lowByte_highByte]

end Sys2Proof.Machine
end

