-- ==== Sys2Proof/Laws/Ops.lean ====
section
/-! SUPPORT. One lemma for each shared operation: everything it can do. -/

namespace Sys2Proof.Machine

/-- A data read that gives a word: from storage, from the timer, from the input stream, or at the end of the input. -/
theorem memRead_value {a w : Word} {s t : State} (h : memRead a s = .value w t) :
    (InStorage a ∧ s.mem.readWord a = some w ∧ t = s) ∨
    (a = 0xF810 ∧ w = Config.anyWord s.draws ∧ t = s.drawn 1) ∨
    (a = 0xF820 ∧ ∃ b rest, s.inp = b :: rest ∧ w = b.setWidth 16 ∧ t = s.setInput rest) ∨
    (a = 0xF820 ∧ s.inp = [] ∧ s.eof = .word w ∧ t = s) := by
  unfold memRead at h
  split at h
  case isTrue ha =>
    split at h
    · rename_i v hv
      cases h
      exact .inl ⟨ha, hv, rfl⟩
    · cases h
  case isFalse =>
    unfold deviceRead at h
    split at h
    case isTrue ha => cases h; exact .inr (.inl ⟨ha, rfl, rfl⟩)
    case isFalse =>
      split at h
      case isTrue ha =>
        unfold charIn at h
        split at h
        · rename_i b rest hb
          cases h
          exact .inr (.inr (.inl ⟨ha, b, rest, hb, rfl, rfl⟩))
        · rename_i hnil
          split at h
          · cases h
          · rename_i v hv
            cases h
            exact .inr (.inr (.inr ⟨ha, hnil, hv, rfl⟩))
      case isFalse => cases h

/-- A data read that waits: the input stream is empty and CHAR_IN_EOF is `block`. -/
theorem memRead_blocked {a : Word} {s : State} (h : memRead a s = .blocked) :
    a = 0xF820 ∧ s.inp = [] ∧ s.eof = .block := by
  unfold memRead at h
  split at h
  · split at h <;> cases h
  · unfold deviceRead at h
    split at h
    · cases h
    · split at h
      case isTrue ha =>
        unfold charIn at h
        split at h
        · cases h
        · rename_i hnil
          split at h
          · rename_i hb
            exact ⟨ha, hnil, hb⟩
          · cases h
      case isFalse => cases h

/-- A data read in storage. -/
theorem memRead_storage {a w : Word} {s : State} (ha : InStorage a) (h : s.mem.readWord a = some w) :
    memRead a s = .value w s := by simp [memRead, ha, h]

/-- A data write that succeeds: to storage, or one event from an output device. -/
theorem memWrite_ok {a v : Word} {s t : State} (h : memWrite a v s = .ok t) :
    (InStorage a ∧ t = s.setMem (s.mem.writeWord a v)) ∨ (¬InStorage a ∧ ∃ e, t = s.emit e) := by
  unfold memWrite at h
  split at h
  case isTrue ha => cases h; exact .inl ⟨ha, rfl⟩
  case isFalse ha =>
    refine .inr ⟨ha, ?_⟩
    unfold deviceWrite at h
    split at h
    · cases h; exact ⟨_, rfl⟩
    · split at h
      · cases h; exact ⟨_, rfl⟩
      · split at h
        · unfold strOut at h
          split at h
          · cases h
          · cases h; exact ⟨_, rfl⟩
        · cases h

/-- A data write in storage. -/
theorem memWrite_storage {a : Word} (v : Word) (s : State) (ha : InStorage a) :
    memWrite a v s = .ok (s.setMem (s.mem.writeWord a v)) := by simp [memWrite, ha]

/-- A fetch from storage. -/
theorem fetch_storage {a w : Word} {s : State} (ha : InStorage a) (h : s.mem.readWord a = some w) :
    fetch a s = .ok w := by simp [fetch, ha, h]

/-- A fetch of a word never written. -/
theorem fetch_unwritten {a : Word} {s : State} (ha : InStorage a) (h : s.mem.readWord a = none) :
    fetch a s = .error (.uninitialisedRead a) := by simp [fetch, ha, h]

/-- A fetch from the I/O region. -/
theorem fetch_io {a : Word} (s : State) (ha : ¬InStorage a) : fetch a s = .error (.fetchFromMMIO a) := by
  simp [fetch, ha]

/-- Fetching and decoding a one-word instruction. -/
theorem fetchInstr_complete {s : State} {w0 : Word} {i : Instr} (hf : fetch s.pc s = .ok w0)
    (hd : decodeHead w0 = .ok (.complete i)) : fetchInstr s = .ok (w0, i) := by simp [fetchInstr, hf, hd]

/-- Fetching and decoding a two-word instruction, or its fault at the second word. -/
theorem fetchInstr_needsWord {s : State} {w0 : Word} {build : Word → Instr} (hf : fetch s.pc s = .ok w0)
    (hd : decodeHead w0 = .ok (.needsWord build)) :
    fetchInstr s = match fetch (s.pc + 1) s with
      | .error f => .error f
      | .ok w1 => .ok (w0, build w1) := by simp only [fetchInstr, hf, hd]; rfl

/-- A step of a machine that is not halted, from what its fetch gives. -/
theorem step_fetched {s : State} {w0 : Word} {i : Instr} (h : s.halted = false) (hf : fetchInstr s = .ok (w0, i)) :
    step s = exec i (s.loadIr w0) := by simp [step, h, hf]

/-- A step whose fetch is a fault. -/
theorem step_fetchFault {s : State} {f : Fault} (h : s.halted = false) (hf : fetchInstr s = .error f) :
    step s = .fault f := by simp [step, h, hf]

/-- A load that answers a next state has its word, or waits and changes nothing. -/
theorem withLoaded_next {a : Word} {s t : State} {k : Word → State → Result} (h : withLoaded a s k = .next t) :
    (∃ w u, memRead a s = .value w u ∧ k w u = .next t) ∨ (memRead a s = .blocked ∧ t = s) := by
  unfold withLoaded at h
  split at h
  · rename_i w u hr
    exact .inl ⟨w, u, hr, h⟩
  · rename_i hr
    cases h
    exact .inr ⟨hr, rfl⟩
  · cases h

/-- A store that answers a next state has been made. -/
theorem withStored_next {a v : Word} {s t : State} {k : State → Result} (h : withStored a v s k = .next t) :
    ∃ u, memWrite a v s = .ok u ∧ k u = .next t := by
  unfold withStored at h
  split at h
  · rename_i u hw
    exact ⟨u, hw, h⟩
  · cases h

/-- A step of a machine that is not halted is the meaning of the instruction fetched. -/
theorem step_next {s t : State} (h : step s = .next t) :
    (s.halted = true ∧ t = s) ∨
    (s.halted = false ∧ ∃ w0 i, fetchInstr s = .ok (w0, i) ∧ exec i (s.loadIr w0) = .next t) := by
  unfold step at h
  split at h
  case isTrue hh => cases h; exact .inl ⟨hh, rfl⟩
  case isFalse hh =>
    refine .inr ⟨by simpa using hh, ?_⟩
    split at h
    · cases h
    · rename_i w0 i hf
      exact ⟨w0, i, hf, h⟩

/-- What the meaning of an instruction that answers a next state has done to everything but the registers, the flags and
`pc`: nothing (and DIV by zero drew three free values, HALT set `halted`); a load that got its word; a load that waits; a
store. -/
theorem exec_next {i : Instr} {s t : State} (h : exec i s = .next t) :
    (loadSource i s = none ∧ storeTarget i s = none ∧ t.mem = s.mem ∧ t.out = s.out ∧ t.inp = s.inp ∧ t.eof = s.eof ∧
      t.ir = s.ir ∧ t.cycle = s.cycle + 1 ∧ (i ≠ .halt → t.halted = s.halted) ∧
      ((∀ rd rs, i = .div rd rs → s.reg rs ≠ 0) → t.draws = s.draws)) ∨
    (∃ a w u, loadSource i s = some a ∧ storeTarget i s = none ∧ memRead a s = .value w u ∧ t.flags = s.flags ∧
      t.mem = s.mem ∧ t.out = s.out ∧ t.inp = u.inp ∧ t.eof = s.eof ∧ t.ir = s.ir ∧ t.cycle = s.cycle + 1 ∧
      t.halted = s.halted ∧ t.draws = u.draws) ∨
    (∃ a, loadSource i s = some a ∧ storeTarget i s = none ∧ memRead a s = .blocked ∧ t = s) ∨
    (∃ a b u, storeTarget i s = some a ∧ loadSource i s = none ∧ (b = s ∨ b = s.decrementSp) ∧
      memWrite a (storeValue i s) b = .ok u ∧ t.flags = s.flags ∧ t.mem = u.mem ∧ t.out = u.out ∧ t.inp = s.inp ∧
      t.eof = s.eof ∧ t.ir = s.ir ∧ t.cycle = s.cycle + 1 ∧ t.halted = s.halted ∧ t.draws = s.draws) := by
  have load : ∀ {a : Word} {k : Word → State → Result}, loadSource i s = some a → storeTarget i s = none →
      withLoaded a s k = .next t →
      (∀ w u, k w u = .next t → t.flags = u.flags ∧ t.mem = u.mem ∧ t.out = u.out ∧ t.inp = u.inp ∧ t.eof = u.eof ∧
        t.ir = u.ir ∧ t.cycle = u.cycle + 1 ∧ t.halted = u.halted ∧ t.draws = u.draws) →
      (∃ a w u, loadSource i s = some a ∧ storeTarget i s = none ∧ memRead a s = .value w u ∧ t.flags = s.flags ∧
        t.mem = s.mem ∧ t.out = s.out ∧ t.inp = u.inp ∧ t.eof = s.eof ∧ t.ir = s.ir ∧ t.cycle = s.cycle + 1 ∧
        t.halted = s.halted ∧ t.draws = u.draws) ∨
      (∃ a, loadSource i s = some a ∧ storeTarget i s = none ∧ memRead a s = .blocked ∧ t = s) := by
    intro a k hl hs hk hfin
    rcases withLoaded_next hk with ⟨w, u, hr, hw⟩ | ⟨hb, ht⟩
    · refine .inl ⟨a, w, u, hl, hs, hr, ?_⟩
      have := hfin w u hw
      rcases memRead_value hr with ⟨_, _, rfl⟩ | ⟨_, _, rfl⟩ | ⟨_, b, rest, _, _, rfl⟩ | ⟨_, _, _, rfl⟩ <;>
        simpa using this
    · exact .inr ⟨a, hl, hs, hb, ht⟩
  have store : ∀ {a : Word} {b : State} {k : State → Result}, storeTarget i s = some a → loadSource i s = none →
      (b = s ∨ b = s.decrementSp) → withStored a (storeValue i s) b k = .next t →
      (∀ u, k u = .next t → t.flags = u.flags ∧ t.mem = u.mem ∧ t.out = u.out ∧ t.inp = u.inp ∧ t.eof = u.eof ∧
        t.ir = u.ir ∧ t.cycle = u.cycle + 1 ∧ t.halted = u.halted ∧ t.draws = u.draws) →
      (∃ a b u, storeTarget i s = some a ∧ loadSource i s = none ∧ (b = s ∨ b = s.decrementSp) ∧
        memWrite a (storeValue i s) b = .ok u ∧ t.flags = s.flags ∧ t.mem = u.mem ∧ t.out = u.out ∧ t.inp = s.inp ∧
        t.eof = s.eof ∧ t.ir = s.ir ∧ t.cycle = s.cycle + 1 ∧ t.halted = s.halted ∧ t.draws = s.draws) := by
    intro a b k hs hl hb hk hfin
    obtain ⟨u, hw, hu⟩ := withStored_next hk
    refine ⟨a, b, u, hs, hl, hb, hw, ?_⟩
    have := hfin u hu
    rcases memWrite_ok hw with ⟨_, rfl⟩ | ⟨_, e, rfl⟩ <;> rcases hb with rfl | rfl <;> simpa using this
  cases i
  case ldDirect rd addr =>
    exact .inr ((load rfl rfl h fun w u hk => by cases hk; simp).imp_right .inl)
  case ldIndirect rd rs =>
    exact .inr ((load rfl rfl h fun w u hk => by cases hk; simp).imp_right .inl)
  case pop rd =>
    exact .inr ((load rfl rfl h fun w u hk => by cases hk; simp).imp_right .inl)
  case ret =>
    exact .inr ((load rfl rfl h fun w u hk => by cases hk; simp).imp_right .inl)
  case stDirect addr rs =>
    exact .inr (.inr (.inr (store rfl rfl (.inl rfl) h fun u hk => by cases hk; simp)))
  case stIndirect rd rs =>
    exact .inr (.inr (.inr (store rfl rfl (.inl rfl) h fun u hk => by cases hk; simp)))
  case push rs =>
    exact .inr (.inr (.inr (store rfl rfl (.inr rfl) h fun u hk => by cases hk; simp)))
  case call addr =>
    exact .inr (.inr (.inr (store rfl rfl (.inr rfl) h fun u hk => by cases hk; simp)))
  case div rd rs =>
    left
    simp only [exec, execDiv, divideByZero, finishZN] at h
    split at h
    case isTrue hz =>
      cases h
      simp [loadSource, storeTarget, hz]
    case isFalse => cases h; simp [loadSource, storeTarget]
  all_goals
    left
    cases h
    simp [loadSource, storeTarget]

end Sys2Proof.Machine
end

