-- ==== Sys2Proof/Laws/PerInstr.lean ====
section
/-! SUPPORT. What holds of every instruction as syntax, one lemma per constructor. -/

/-- The encoding of an instruction is well formed: its opcode is not reserved, its mode is defined, its unused fields are
zero, and it has as many words as its row of the opcode table (R83, R87, R88) and `wordCount` say. -/
def Sys2Proof.Laws.Canonical.Statement (i : Sys2Proof.Instr) : Prop :=
  Sys2Proof.wellFormed (Sys2Proof.encodeWords i) = true ∧ (Sys2Proof.encodeWords i).length = Sys2Proof.wordCount i

namespace Sys2Proof.Laws.Canonical

open Sys2Proof

theorem nop : Statement .nop := by
  exact ⟨rfl, rfl⟩

theorem ldi (rd : Reg) (imm : Word) : Statement (.ldi rd imm) := by
  cases rd <;> exact ⟨rfl, rfl⟩

theorem ldDirect (rd : Reg) (addr : Word) : Statement (.ldDirect rd addr) := by
  cases rd <;> exact ⟨rfl, rfl⟩

theorem ldIndirect (rd : Reg) (rs : Reg) : Statement (.ldIndirect rd rs) := by
  cases rd <;> cases rs <;> exact ⟨rfl, rfl⟩

theorem stDirect (addr : Word) (rs : Reg) : Statement (.stDirect addr rs) := by
  cases rs <;> exact ⟨rfl, rfl⟩

theorem stIndirect (rd : Reg) (rs : Reg) : Statement (.stIndirect rd rs) := by
  cases rd <;> cases rs <;> exact ⟨rfl, rfl⟩

theorem mov (rd : Reg) (rs : Reg) : Statement (.mov rd rs) := by
  cases rd <;> cases rs <;> exact ⟨rfl, rfl⟩

theorem add (rd : Reg) (rs : Reg) : Statement (.add rd rs) := by
  cases rd <;> cases rs <;> exact ⟨rfl, rfl⟩

theorem sub (rd : Reg) (rs : Reg) : Statement (.sub rd rs) := by
  cases rd <;> cases rs <;> exact ⟨rfl, rfl⟩

theorem mul (rd : Reg) (rs : Reg) : Statement (.mul rd rs) := by
  cases rd <;> cases rs <;> exact ⟨rfl, rfl⟩

theorem div (rd : Reg) (rs : Reg) : Statement (.div rd rs) := by
  cases rd <;> cases rs <;> exact ⟨rfl, rfl⟩

theorem inc (rd : Reg) : Statement (.inc rd) := by
  cases rd <;> exact ⟨rfl, rfl⟩

theorem dec (rd : Reg) : Statement (.dec rd) := by
  cases rd <;> exact ⟨rfl, rfl⟩

theorem addi (rd : Reg) (imm : Word) : Statement (.addi rd imm) := by
  cases rd <;> exact ⟨rfl, rfl⟩

theorem subi (rd : Reg) (imm : Word) : Statement (.subi rd imm) := by
  cases rd <;> exact ⟨rfl, rfl⟩

theorem and (rd : Reg) (rs : Reg) : Statement (.and rd rs) := by
  cases rd <;> cases rs <;> exact ⟨rfl, rfl⟩

theorem or (rd : Reg) (rs : Reg) : Statement (.or rd rs) := by
  cases rd <;> cases rs <;> exact ⟨rfl, rfl⟩

theorem xor (rd : Reg) (rs : Reg) : Statement (.xor rd rs) := by
  cases rd <;> cases rs <;> exact ⟨rfl, rfl⟩

theorem not (rd : Reg) : Statement (.not rd) := by
  cases rd <;> exact ⟨rfl, rfl⟩

theorem shl (rd : Reg) (rs : Reg) : Statement (.shl rd rs) := by
  cases rd <;> cases rs <;> exact ⟨rfl, rfl⟩

theorem shr (rd : Reg) (rs : Reg) : Statement (.shr rd rs) := by
  cases rd <;> cases rs <;> exact ⟨rfl, rfl⟩

theorem sar (rd : Reg) (rs : Reg) : Statement (.sar rd rs) := by
  cases rd <;> cases rs <;> exact ⟨rfl, rfl⟩

theorem beq (addr : Word) : Statement (.beq addr) := by
  exact ⟨rfl, rfl⟩

theorem bne (addr : Word) : Statement (.bne addr) := by
  exact ⟨rfl, rfl⟩

theorem bgt (addr : Word) : Statement (.bgt addr) := by
  exact ⟨rfl, rfl⟩

theorem blt (addr : Word) : Statement (.blt addr) := by
  exact ⟨rfl, rfl⟩

theorem bge (addr : Word) : Statement (.bge addr) := by
  exact ⟨rfl, rfl⟩

theorem ble (addr : Word) : Statement (.ble addr) := by
  exact ⟨rfl, rfl⟩

theorem bcs (addr : Word) : Statement (.bcs addr) := by
  exact ⟨rfl, rfl⟩

theorem bcc (addr : Word) : Statement (.bcc addr) := by
  exact ⟨rfl, rfl⟩

theorem jmp (addr : Word) : Statement (.jmp addr) := by
  exact ⟨rfl, rfl⟩

theorem push (rs : Reg) : Statement (.push rs) := by
  cases rs <;> exact ⟨rfl, rfl⟩

theorem pop (rd : Reg) : Statement (.pop rd) := by
  cases rd <;> exact ⟨rfl, rfl⟩

theorem call (addr : Word) : Statement (.call addr) := by
  exact ⟨rfl, rfl⟩

theorem ret : Statement .ret := by
  exact ⟨rfl, rfl⟩

theorem cmp (rd : Reg) (rs : Reg) : Statement (.cmp rd rs) := by
  cases rd <;> cases rs <;> exact ⟨rfl, rfl⟩

theorem halt : Statement .halt := by
  exact ⟨rfl, rfl⟩

end Sys2Proof.Laws.Canonical
end

