-- ==== Sys2Proof/Tests/Slice0.lean ====
section
/-! SUPPORT. Tests: expected results are those of spec/95_test_vectors.md (the vector's name stands by each), and witnesses
for the hypotheses of the statements. -/

namespace Sys2Proof.Tests

open Sys2Proof Sys2Proof.Machine

/-! ### Decoding: the words of part 1.1, one for each row of the opcode table -/

theorem test_decode_system :
    decodeTableWord 16 0x0000 = some .nop ∧ decodeTableWord 16 0xF000 = some .halt := by decide

theorem test_decode_data_transfer :
    decodeTableWord 32 0x12341000 = some (.ldi .r0 0x1234) ∧
    decodeTableWord 32 0x20001201 = some (.ldDirect .r1 0x2000) ∧
    decodeTableWord 16 0x14C2 = some (.ldIndirect .r2 .r3) ∧
    decodeTableWord 32 0x30002100 = some (.stDirect 0x3000 .r4) ∧
    decodeTableWord 16 0x2B81 = some (.stIndirect .r5 .r6) ∧
    decodeTableWord 16 0x3040 = some (.mov .r0 .r1) := by decide

theorem test_decode_arithmetic :
    decodeTableWord 16 0x4040 = some (.add .r0 .r1) ∧
    decodeTableWord 16 0x44C1 = some (.sub .r2 .r3) ∧
    decodeTableWord 16 0x4942 = some (.mul .r4 .r5) ∧
    decodeTableWord 16 0x4DC3 = some (.div .r6 .r7) ∧
    decodeTableWord 16 0x4004 = some (.inc .r0) ∧
    decodeTableWord 16 0x4205 = some (.dec .r1) ∧
    decodeTableWord 32 0x00644406 = some (.addi .r2 100) ∧
    decodeTableWord 32 0x00324607 = some (.subi .r3 50) := by decide

theorem test_decode_logical_and_shift :
    decodeTableWord 16 0x5040 = some (.and .r0 .r1) ∧
    decodeTableWord 16 0x54C1 = some (.or .r2 .r3) ∧
    decodeTableWord 16 0x5942 = some (.xor .r4 .r5) ∧
    decodeTableWord 16 0x5C03 = some (.not .r6) ∧
    decodeTableWord 16 0x6040 = some (.shl .r0 .r1) ∧
    decodeTableWord 16 0x64C1 = some (.shr .r2 .r3) ∧
    decodeTableWord 16 0x6942 = some (.sar .r4 .r5) := by decide

theorem test_decode_branch_and_jump :
    decodeTableWord 32 0x02007000 = some (.beq 0x0200) ∧
    decodeTableWord 32 0x02007001 = some (.bne 0x0200) ∧
    decodeTableWord 32 0x02007002 = some (.bgt 0x0200) ∧
    decodeTableWord 32 0x02007003 = some (.blt 0x0200) ∧
    decodeTableWord 32 0x02007004 = some (.bge 0x0200) ∧
    decodeTableWord 32 0x02007005 = some (.ble 0x0200) ∧
    decodeTableWord 32 0x02007006 = some (.bcs 0x0200) ∧
    decodeTableWord 32 0x02007007 = some (.bcc 0x0200) ∧
    decodeTableWord 32 0x02008000 = some (.jmp 0x0200) := by decide

theorem test_decode_stack_and_compare :
    decodeTableWord 16 0x9000 = some (.push .r0) ∧
    decodeTableWord 16 0x91C0 = some (.push .r7) ∧
    decodeTableWord 16 0x9201 = some (.pop .r1) ∧
    decodeTableWord 32 0x0300A000 = some (.call 0x0300) ∧
    decodeTableWord 16 0xB000 = some .ret ∧
    decodeTableWord 16 0xC040 = some (.cmp .r0 .r1) := by decide

/-- The words of part 2.9. -/
def illegalWords : List Word :=
  [0x0040, 0x0200, 0x0001, 0x1003, 0x1040, 0x2002, 0x2200, 0x3001, 0x4008, 0x4044, 0x5004, 0x5043, 0x6003, 0x7008,
   0x7203, 0x8001, 0x8040, 0x9002, 0x9200, 0x9041, 0xA001, 0xB001, 0xC001, 0xF001, 0xB200] ++
  [0xD000, 0xDFFF, 0xE000, 0xFFFF]

theorem test_illegal_words_do_not_decode :
    illegalWords.all (fun w => decodeTableWord 16 w.toNat == none) = true := by decide

/-- Which word is rejected why (part 2.9). -/
theorem test_reasons_for_rejection :
    (match decodeHead 0xD000 with | .error e => some e | .ok _ => none) = some Reject.reservedOpcode ∧
    (match decodeHead 0x4008 with | .error e => some e | .ok _ => none) = some Reject.undefinedMode ∧
    (match decodeHead 0x4044 with | .error e => some e | .ok _ => none) = some Reject.unusedFieldNotZero ∧
    (match decodeBytes [0x00, 0x10, 0x34] with | .error e => some e | .ok _ => none) = some Reject.truncated := by
  decide

/-! ### WellFormed: each check refuses an ill-formed term -/

theorem test_wellFormed_accepts : wellFormed [0x1000, 0x1234] = true ∧ wellFormed [0x14C2] = true := by decide

theorem test_wellFormed_refuses_a_reserved_opcode : wellFormed [0xD000] = false ∧ wellFormed [0xE000] = false := by
  decide

theorem test_wellFormed_refuses_an_undefined_mode : wellFormed [0x4008] = false := by decide

theorem test_wellFormed_refuses_an_unused_field : wellFormed [0x4044] = false ∧ wellFormed [0x9200] = false := by decide

theorem test_wellFormed_refuses_a_wrong_length :
    wellFormed [] = false ∧ wellFormed [0x1000] = false ∧ wellFormed [0x0000, 0x0000] = false := by decide

theorem test_wellFormed_refuses_every_illegal_word : illegalWords.all (fun w => !legalWord w) = true := by decide

theorem test_imageWellFormed_accepts : imageWellFormed [(0x0000, 0xF000), (0xF7FF, 0xDFFF)] = true := by decide

theorem test_imageWellFormed_refuses_the_io_region : imageWellFormed [(0x0000, 0xF000), (0xF800, 0x0000)] = false := by
  decide

theorem test_imageWellFormed_refuses_two_words_at_one_address :
    imageWellFormed [(0x0000, 0xF000), (0x0000, 0x0000)] = false := by decide

theorem test_imageWellFormed_refuses_an_image_without_an_entry :
    imageWellFormed [(0x0001, 0xF000)] = false ∧ imageWellFormed [(0x0000, 0xD000)] = false := by decide

/-- JMP has two words (R83). -/
theorem test_imageWellFormed_wants_the_whole_entry_instruction :
    imageWellFormed [(0x0000, 0x8000)] = false ∧ imageWellFormed [(0x0000, 0x8000), (0x0001, 0x0000)] = true := by decide

/-- R247, and log entry 37 for the odd byte. -/
theorem test_image_bytes :
    wordsOfBytes [0x34, 0x12, 0x00, 0xF0] = some [0x1234, 0xF000] ∧ wordsOfBytes [0x34, 0x12, 0x00] = none := by decide

/-! ### One step -/

/-- The conventions of the vectors: the words at 0x0100, SP = 0xE000 unless listed, no input. -/
def at0100 (words : List Word) (regs : List (Reg × Word)) (z n c : Bool) (mem : Image) : State :=
  regs.foldl (fun s entry => s.setReg entry.1 entry.2)
    { State.reset with
      pc := 0x0100
      flags := ⟨z, n, c, false⟩
      mem := Memory.ofImage (imageAt 0x0100 words ++ mem) }

/-- A register, `pc`, and Z, N, C after one step. -/
def result (r : Reg) (s : State) : Option (Word × Word × Bool × Bool × Bool) :=
  (nextOf (step s)).map fun t => (t.reg r, t.pc, t.flags.z, t.flags.n, t.flags.c)

/-- A word of memory, SP and `pc` after one step. -/
def stored (a : Word) (s : State) : Option (Option Word × Word × Word) :=
  (nextOf (step s)).map fun t => (t.mem.readWord a, t.reg .r7, t.pc)

/-- What one step emits. -/
def emitted (s : State) : Option (List OutEvent) := (nextOf (step s)).map (·.out)

/-- T1. -/
theorem test_ldi : result .r0 (at0100 [0x1000, 0x1234] [] true true true []) =
    some (0x1234, 0x0102, true, true, true) := by decide
/-- T4. -/
theorem test_ld_direct : result .r1 (at0100 [0x1201, 0x2000] [] true true true [(0x2000, 0xBEEF)]) =
    some (0xBEEF, 0x0102, true, true, true) := by decide
/-- T5. -/
theorem test_ld_direct_unwritten : faultOf (step (at0100 [0x1201, 0x2000] [] true true true [])) =
    some (.uninitialisedRead 0x2000) := by decide
/-- T7. -/
theorem test_ld_indirect : result .r3 (at0100 [0x16C2] [(.r3, 0x0300)] false true false [(0x0300, 0x0301)]) =
    some (0x0301, 0x0101, false, true, false) := by decide
/-- T8. -/
theorem test_ld_indirect_no_reader : faultOf (step (at0100 [0x14C2] [(.r3, 0xF800)] false false false [])) =
    some (.badMMIOAccess 0xF800 .read) := by decide
/-- T10. -/
theorem test_st_direct : stored 0x3000 (at0100 [0x2100, 0x3000] [(.r4, 0xCAFE)] false false false []) =
    some (some 0xCAFE, 0xE000, 0x0102) := by decide
/-- T13. -/
theorem test_st_direct_no_writer : faultOf (step (at0100 [0x2000, 0xF810] [(.r0, 1)] false false false [])) =
    some (.badMMIOAccess 0xF810 .write) := by decide
/-- T11. -/
theorem test_st_indirect : stored 0x0400 (at0100 [0x2B81] [(.r5, 0x0400), (.r6, 7)] false false false []) =
    some (some 7, 0xE000, 0x0101) := by decide
/-- T17. -/
theorem test_mov : result .r0 (at0100 [0x3040] [(.r0, 9), (.r1, 0)] false true true []) =
    some (0, 0x0101, false, true, true) := by decide

/-- A1. -/
theorem test_add_wraps : result .r0 (at0100 [0x4040] [(.r0, 0xFFFF), (.r1, 1)] false false false []) =
    some (0, 0x0101, true, false, true) := by decide
/-- A2. -/
theorem test_add_signed_overflow : result .r0 (at0100 [0x4040] [(.r0, 0x7FFF), (.r1, 1)] true true true []) =
    some (0x8000, 0x0101, false, true, false) := by decide
/-- A10. -/
theorem test_sub_borrows : result .r2 (at0100 [0x44C1] [(.r2, 3), (.r3, 0xFFFF)] false false false []) =
    some (4, 0x0101, false, false, true) := by decide
/-- A12. -/
theorem test_mul_overflows : result .r4 (at0100 [0x4942] [(.r4, 0xFFFF), (.r5, 0xFFFF)] true true false []) =
    some (1, 0x0101, false, false, true) := by decide
/-- A16. -/
theorem test_mul_fits : result .r4 (at0100 [0x4942] [(.r4, 0xFF), (.r5, 0x101)] false false true []) =
    some (0xFFFF, 0x0101, false, true, false) := by decide
/-- A17. -/
theorem test_div : result .r6 (at0100 [0x4DC3] [(.r6, 100), (.r7, 7)] true true true []) =
    some (14, 0x0101, false, false, true) := by decide
/-- A23: the flags are draws, the rest is fixed. -/
theorem test_div_by_zero :
    (nextOf (step (at0100 [0x4DC3] [(.r6, 0x64), (.r7, 0)] false false false []))).map (fun t => (t.reg .r6, t.pc)) =
      some (0x64, 0x0101) := by decide
/-- A25. -/
theorem test_inc_keeps_carry : result .r0 (at0100 [0x4004] [(.r0, 0xFFFF)] false true true []) =
    some (0, 0x0101, true, false, true) := by decide
/-- A27. -/
theorem test_dec_wraps : result .r1 (at0100 [0x4205] [(.r1, 0)] true false false []) =
    some (0xFFFF, 0x0101, false, true, false) := by decide
/-- A30. -/
theorem test_addi : result .r2 (at0100 [0x4406, 0x0064] [(.r2, 0xFFC0)] true true false []) =
    some (0x0024, 0x0102, false, false, true) := by decide
/-- A36. -/
theorem test_subi : result .r3 (at0100 [0x4607, 0x0032] [(.r3, 0x31)] false false false []) =
    some (0xFFFF, 0x0102, false, true, true) := by decide

/-- G1. -/
theorem test_and : result .r0 (at0100 [0x5040] [(.r0, 0xF0F0), (.r1, 0x0FF0)] true true true []) =
    some (0x00F0, 0x0101, false, false, true) := by decide
/-- G5. -/
theorem test_or : result .r2 (at0100 [0x54C1] [(.r2, 0x00F0), (.r3, 0x0F00)] true true true []) =
    some (0x0FF0, 0x0101, false, false, true) := by decide
/-- G10. -/
theorem test_xor : result .r4 (at0100 [0x5942] [(.r4, 0x00FF), (.r5, 0x0F0F)] true true true []) =
    some (0x0FF0, 0x0101, false, false, true) := by decide
/-- G13. -/
theorem test_not : result .r6 (at0100 [0x5C03] [(.r6, 0x1234)] true false false []) =
    some (0xEDCB, 0x0101, false, true, false) := by decide
/-- S4. -/
theorem test_shl : result .r0 (at0100 [0x6040] [(.r0, 0x1234), (.r1, 0x14)] true true true []) =
    some (0x2340, 0x0101, false, false, true) := by decide
/-- S11. -/
theorem test_shr : result .r2 (at0100 [0x64C1] [(.r2, 0xFFFF), (.r3, 0x21)] true true false []) =
    some (0x7FFF, 0x0101, false, false, false) := by decide
/-- S12. -/
theorem test_sar : result .r4 (at0100 [0x6942] [(.r4, 0xFFF9), (.r5, 1)] true false true []) =
    some (0xFFFC, 0x0101, false, true, true) := by decide
/-- K7. -/
theorem test_cmp : result .r0 (at0100 [0xC040] [(.r0, 0x7FFF), (.r1, 0xFFFF)] false false false []) =
    some (0x7FFF, 0x0101, false, true, true) := by decide

/-- Where each branch goes, in the order of the columns of part 2.5's table. -/
def branchesTaken (z n c : Bool) : List Bool :=
  [0x7000, 0x7001, 0x7002, 0x7003, 0x7004, 0x7005, 0x7006, 0x7007].map fun w =>
    (nextOf (step (at0100 [w, 0x0200] [] z n c []))).map (·.pc) == some 0x0200

/-- The rows of part 2.5's table. -/
theorem test_branches :
    branchesTaken false false false = [false, true, true, false, true, false, false, true] ∧
    branchesTaken true false false = [true, false, false, false, true, true, false, true] ∧
    branchesTaken false true false = [false, true, false, true, false, true, false, true] ∧
    branchesTaken false false true = [false, true, true, false, true, false, true, false] ∧
    branchesTaken true true true = [true, false, false, true, false, true, true, false] := by decide
/-- A branch not taken goes past its address word. -/
theorem test_branch_not_taken : result .r0 (at0100 [0x7003, 0x0200] [] false false true []) =
    some (0, 0x0102, false, false, true) := by decide
/-- B6. -/
theorem test_jmp : result .r0 (at0100 [0x8000, 0xF800] [] false false false []) =
    some (0, 0xF800, false, false, false) := by decide
/-- B7. -/
theorem test_fetch_of_the_second_word_from_the_io_region :
    faultOf (step { State.reset with pc := 0xF7FF, mem := Memory.ofImage [(0xF7FF, 0x7001)] }) =
      some (.fetchFromMMIO 0xF800) := by decide

/-- K1s. -/
theorem test_push : stored 0xDFFF (at0100 [0x9000] [(.r0, 0x1234)] false false false []) =
    some (some 0x1234, 0xDFFF, 0x0101) := by decide
/-- K2s. -/
theorem test_push_sp : stored 0xDFFF (at0100 [0x91C0] [] false false false []) =
    some (some 0xDFFF, 0xDFFF, 0x0101) := by decide
/-- K5s. -/
theorem test_pop : result .r1 (at0100 [0x9201] [(.r7, 0xDFFF)] false true false [(0xDFFF, 0x1234)]) =
    some (0x1234, 0x0101, false, true, false) := by decide
/-- K7s. -/
theorem test_pop_sp : result .r7 (at0100 [0x9E01] [(.r7, 0xDFFF)] false true false [(0xDFFF, 0x4000)]) =
    some (0x4001, 0x0101, false, true, false) := by decide
/-- K9s. -/
theorem test_call : stored 0xDFFF (at0100 [0xA000, 0x0300] [] false false false []) =
    some (some 0x0102, 0xDFFF, 0x0300) := by decide
/-- K11s. -/
theorem test_ret : stored 0xDFFF (at0100 [0xB000] [(.r7, 0xDFFF)] false false false [(0xDFFF, 0x0012)]) =
    some (some 0x0012, 0xE000, 0x0012) := by decide
/-- K4s. -/
theorem test_push_to_a_device : emitted (at0100 [0x9000] [(.r0, 1), (.r7, 0xF801)] false false false []) =
    some [.charOut 0x01] := by decide
/-- Y1. -/
theorem test_nop : result .r0 (at0100 [0x0000] [] true true true []) = some (0, 0x0101, true, true, true) := by decide
/-- Y2, and R191 for `pc`. -/
theorem test_halt :
    (nextOf (step (at0100 [0xF000] [] true true true []))).map (fun t => (t.halted, t.pc, t.out)) =
      some (true, 0x0100, []) := by decide
/-- Part 2.9. -/
theorem test_illegal_instruction : faultOf (step (at0100 [0x4044] [] false false false [])) =
    some (.illegalInstruction 0x0100 0x4044) := by decide

/-- T15, T16. -/
theorem test_output_devices :
    emitted (at0100 [0x2000, 0xF800] [(.r0, 0x1241)] false false false []) = some [.charOut 0x41] ∧
    emitted (at0100 [0x2000, 0xF801] [(.r0, 0xFFFF)] false false false []) = some [.intOut 0xFFFF] ∧
    stdoutBytes unsignedDecimal [.charOut 0x41, .intOut 0xFFFF, .intOut 0] =
      [0x41, 0x36, 0x35, 0x35, 0x33, 0x35, 0x30] := by decide
/-- D1 to D3. -/
theorem test_string_device :
    emitted (at0100 [0x2000, 0xF802] [(.r0, 0x0200)] false false false [(0x0200, 0)]) = some [.strOut []] ∧
    emitted (at0100 [0x2000, 0xF802] [(.r0, 0x0200)] false false false
      [(0x0200, 0x0048), (0x0201, 0x0069), (0x0202, 0)]) = some [.strOut [0x48, 0x69]] ∧
    emitted (at0100 [0x2000, 0xF802] [(.r0, 0x0200)] false false false [(0x0200, 0x1248), (0x0201, 0)]) =
      some [.strOut [0x48]] := by decide
/-- D4 to D7. -/
theorem test_string_device_faults :
    faultOf (step (at0100 [0x2000, 0xF802] [(.r0, 0x0200)] false false false [(0x0200, 0x0048), (0x0201, 0x4100)])) =
      some (.stringScanFault 0x0201) ∧
    faultOf (step (at0100 [0x2000, 0xF802] [(.r0, 0x0200)] false false false [(0x0200, 0x0048)])) =
      some (.uninitialisedRead 0x0201) ∧
    faultOf (step (at0100 [0x2000, 0xF802] [(.r0, 0xF7FF)] false false false [(0xF7FF, 0x0041)])) =
      some (.stringScanFault 0xF800) ∧
    faultOf (step (at0100 [0x2000, 0xF802] [(.r0, 0xF800)] false false false [])) = some (.stringScanFault 0xF800) := by
  decide
/-- T9, and R222 for both kinds of CHAR_IN_EOF. -/
theorem test_character_input :
    (nextOf (step { at0100 [0x14C2] [(.r3, 0xF820)] false false false [] with inp := [0x5A] })).map
      (fun t => (t.reg .r2, t.inp, t.pc)) = some (0x005A, [], 0x0101) ∧
    (nextOf (step { at0100 [0x14C2] [(.r3, 0xF820)] false false false [] with eof := .word 0xFFFF })).map
      (fun t => (t.reg .r2, t.inp, t.pc)) = some (0xFFFF, [], 0x0101) ∧
    (nextOf (step (at0100 [0x14C2] [(.r3, 0xF820)] false false false []))).map
      (fun t => (t.reg .r2, t.cycle, t.pc)) = some (0, 0, 0x0100) := by decide
/-- Part 1.3: a timer read is a draw, `cycle` moves by one as for every instruction. -/
theorem test_timer :
    (nextOf (step (at0100 [0x1001, 0xF810] [] false false false []))).map (fun t => (t.pc, t.cycle, t.draws)) =
      some (0x0102, 1, 1) := by decide

/-! ### The assembler -/

/-- Part 1.6. -/
theorem test_assemble_hello_world :
    (assemble (".ORG 0x0000\n\nstart:\n    LDI R0, msg\n    ST [0xF802], R0     ; Print string\n" ++
      "    HALT\n\nmsg:\n    .STRING \"Hello, World!\"\n").toList).map (·.map (·.2)) =
      some ([0x1000, 0x0005, 0x2000, 0xF802, 0xF000] ++
        [0x48, 0x65, 0x6C, 0x6C, 0x6F, 0x2C, 0x20, 0x57, 0x6F, 0x72, 0x6C, 0x64, 0x21, 0x00]) := by decide +kernel

/-- Part 1.7. -/
theorem test_assemble_loop_example :
    assemble (".ORG 0x0000\n\n    LDI R0, 0           ; Counter\n    LDI R1, 10          ; Limit\n\nloop:\n" ++
      "    ST [0xF801], R0     ; Print counter\n    INC R0\n    CMP R0, R1\n" ++
      "    BLT loop            ; Continue if R0 < R1\n\n    HALT\n").toList =
      some (imageAt 0x0000 [0x1000, 0x0000, 0x1200, 0x000A, 0x2000, 0xF801, 0x4004, 0xC040, 0x7003, 0x0004, 0xF000]) := by
  decide +kernel

/-- Part 1.5. -/
theorem test_assemble_directives :
    assemble ".ORG 0x1000\n.WORD 0x1234, 0x5678, 42, -5, 'A'\n.STRING \"Hello\"".toList =
      some (imageAt 0x1000 ([0x1234, 0x5678, 0x002A, 0xFFFB, 0x0041] ++ [0x48, 0x65, 0x6C, 0x6C, 0x6F, 0x00])) := by
  decide +kernel

/-- Two words at one address (log entry 33). R97: a label names the next word emitted, past an `.ORG` too; R99: labels stand
in `.WORD` and `.ORG`, one defined below included. An `.ORG` that depends on itself (log entry 40). -/
theorem test_assemble_labels :
    assemble "top: .ORG 0x10\n.WORD top, end\nend: .WORD ';' ; two\n.ORG last\nHALT\n.ORG 0x20\nlast: RET".toList = none ∧
    assemble "top: .ORG 0x10\n.WORD top, end\nend: .WORD ';' ; two\n.ORG base\nHALT\n.ORG 0x20\n.WORD 7\nbase:".toList =
      some [(0x10, 0x10), (0x11, 0x12), (0x12, 0x3B), (0x21, 0xF000), (0x20, 7)] ∧
    assemble ".ORG a\na: HALT".toList = none := by decide +kernel

/-- R103, and what log entry 33 leaves without an image: an unknown mnemonic, a label defined twice, two words at one
address, no origin, `sp`. -/
theorem test_assemble_rejects :
    assemble ".ORG 0\nSWAP R0, R1".toList = none ∧ assemble ".ORG 0\na: NOP\na: HALT".toList = none ∧
    assemble ".ORG 0\nNOP\n.ORG 0\nHALT".toList = none ∧ assemble "HALT".toList = none ∧
    assemble ".ORG 0\nsp: .WORD 1\nLD R0, [sp]".toList = none := by decide +kernel

/-! ### Witnesses: states and operands that meet the hypotheses of the statements, each clause, at boundary values -/

theorem witness_DecodedBytesAreTheEncoding :
    ∃ i, decodeBytes [0x00, 0x10, 0x34, 0x12, 0xFF] = .ok (i, [0xFF]) := ⟨_, rfl⟩

theorem witness_LegalWordsAreTheTablesRows :
    legalWord 0xFFC0 = false ∧ legalWord 0xC1C0 = true ∧ opcodeIsReserved 0xDFFF = true ∧
    (opcodeIsReserved 0xCFFF = false ∧ modeIsDefined 0xCFFF = false) ∧
    (modeIsDefined 0xF040 = true ∧ legalWord 0xF040 = false) ∧
    (at0100 [0xF040] [] false false false []).halted = false ∧
    fetch 0x0100 (at0100 [0xF040] [] false false false []) = .ok 0xF040 :=
  ⟨by decide, by decide, by decide, by decide, by decide, rfl, rfl⟩

theorem witness_LengthIsAFunctionOfOpcodeAndMode :
    (∃ i, decodeHead 0xB000 = .ok (.complete i)) ∧ (∃ build, decodeHead 0xA000 = .ok (.needsWord build)) ∧
    (at0100 [0xF001] [] false false false []).halted = false ∧
    fetch 0x0100 (at0100 [0xF001] [] false false false []) = .ok 0xF001 ∧ ∃ e, decodeHead 0xF001 = .error e :=
  ⟨⟨_, rfl⟩, ⟨_, rfl⟩, rfl, rfl, _, rfl⟩

theorem witness_StepRunsTheDecodedInstruction :
    ((at0100 [0xB000] [] false false false []).halted = false ∧
      fetch 0x0100 (at0100 [0xB000] [] false false false []) = .ok 0xB000 ∧
      decodeHead 0xB000 = .ok (.complete .ret)) ∧
    ((at0100 [0xA000, 0xFFFF] [] false false false []).halted = false ∧
      fetch 0x0100 (at0100 [0xA000, 0xFFFF] [] false false false []) = .ok 0xA000 ∧
      decodeHead 0xA000 = .ok (.needsWord .call) ∧
      fetch 0x0101 (at0100 [0xA000, 0xFFFF] [] false false false []) = .ok 0xFFFF) :=
  ⟨⟨rfl, rfl, rfl⟩, rfl, rfl, rfl, rfl⟩

theorem witness_StepRunsTheInstructionStandingAtPc :
    (at0100 [0xA000, 0xFFFF] [] false false false []).halted = false ∧
    holdsWords (at0100 [0xA000, 0xFFFF] [] false false false []).mem 0x0100 (encodeWords (.call 0xFFFF)) :=
  ⟨rfl, by decide, by decide, by decide, by decide, trivial⟩

/-- The word `w` at the last address of storage, and `pc` there. -/
def atTheEnd (w : Word) : State := { State.reset with pc := 0xF7FF, mem := Memory.ofImage [(0xF7FF, w)] }

theorem witness_FetchFaultsInOrder :
    (({ State.reset with pc := 0xF800 } : State).halted = false ∧ ¬InStorage 0xF800) ∧
    (State.reset.halted = false ∧ InStorage State.reset.pc ∧ State.reset.mem.readWord State.reset.pc = none) ∧
    ((atTheEnd 0xA000).halted = false ∧ fetch 0xF7FF (atTheEnd 0xA000) = .ok 0xA000 ∧
      decodeHead 0xA000 = .ok (.needsWord .call) ∧ ¬InStorage ((atTheEnd 0xA000).pc + 1)) ∧
    ((at0100 [0xA000] [] false false false []).halted = false ∧
      fetch 0x0100 (at0100 [0xA000] [] false false false []) = .ok 0xA000 ∧ InStorage (0x0100 + 1) ∧
      (at0100 [0xA000] [] false false false []).mem.readWord (0x0100 + 1) = none) :=
  ⟨⟨rfl, by decide⟩, ⟨rfl, by decide, rfl⟩, ⟨rfl, rfl, rfl, by decide⟩, rfl, rfl, by decide, by decide⟩

theorem witness_OnlyHaltSetsHalted :
    (Instr.nop ≠ .halt ∧ ∃ t, exec .nop State.reset = .next t) ∧
    ({ State.reset with halted := true } : State).halted = true := ⟨⟨by decide, _, rfl⟩, rfl⟩

theorem witness_StepKeepsTheInvariant :
    (at0100 [0x9000] [] false false false []).Inv ∧ ∃ t, step (at0100 [0x9000] [] false false false []) = .next t :=
  ⟨by decide, _, rfl⟩

theorem witness_OverflowFlagIsNeverWrittenOrRead :
    (∃ t, step (at0100 [0x4040] [] false false false []) = .next t) ∧
    Reachable Boot.plain State.reset ∧ (∃ t, exec (.add .r0 .r1) State.reset = .next t) ∧
    ∃ f, exec .ret State.reset = .fault f := ⟨⟨_, rfl⟩, Reachable.start, ⟨_, rfl⟩, _, rfl⟩

/-- A store to the character output and a load from the character input, both of which complete. -/
theorem witness_StepOnlyAppendsOutputAndConsumesInput :
    (∃ t, step (at0100 [0x2000, 0xF800] [] false false false []) = .next t) ∧
    ∃ t, step { at0100 [0x1001, 0xF820] [] false false false [] with inp := [0xFF] } = .next t := ⟨⟨_, rfl⟩, _, rfl⟩

theorem witness_EveryCompletedInstructionTakesOneCycle :
    (∃ t, exec .nop State.reset = .next t ∧ t.cycle = State.reset.cycle + 1) ∧
    exec (.ldDirect .r0 0xF820) State.reset = .next State.reset := ⟨⟨_, rfl, rfl⟩, rfl⟩

theorem witness_FlagsWrittenAreThoseOfTheTable :
    (∃ t, exec (.mov .r0 .r1) State.reset = .next t) ∧ writesZN (.mov .r0 .r1) = false ∧
    (∃ t, exec (.div .r0 .r7) State.reset = .next t) ∧ writesC (.div .r0 .r7) State.reset = false ∧
    (∃ t, exec (.div .r0 .r1) State.reset = .next t) ∧ writesZN (.div .r0 .r1) = true ∧
    writesC (.div .r0 .r1) State.reset = true ∧ isBranch (.div .r0 .r1) = false :=
  ⟨⟨_, rfl⟩, rfl, ⟨_, rfl⟩, by decide, ⟨_, rfl⟩, rfl, by decide, rfl⟩

theorem witness_OnlyBranchesReadFlags :
    isBranch .nop = false ∧ (∃ t, exec .nop State.reset = .next t) ∧ isBranch .ret = false ∧
    (∃ x, exec .ret State.reset = .fault x) ∧
    (⟨false, true, true, true⟩ : Flags).z = State.reset.flags.z ∧
    (⟨true, false, true, true⟩ : Flags).n = State.reset.flags.n ∧
    (⟨true, true, false, true⟩ : Flags).c = State.reset.flags.c := ⟨rfl, ⟨_, rfl⟩, rfl, ⟨_, rfl⟩, rfl, rfl, rfl⟩

theorem witness_RegistersWrittenAreTheDestinations :
    (∃ t, exec (.pop .r1) (at0100 [] [(.r7, 0xF7FF)] false false false [(0xF7FF, 5)]) = .next t) ∧
    Reg.r0 ∉ destRegs (.pop .r1) := ⟨⟨_, rfl⟩, by decide⟩

theorem witness_MemoryWrittenIsTheStoreTarget :
    (∃ t, exec (.push .r0) State.reset = .next t) ∧ storeTarget (.push .r0) State.reset = some 0xDFFF ∧
    (0 ≠ lowKey 0xDFFF ∧ 0 ≠ highKey 0xDFFF) ∧
    (∃ t, exec (.stDirect 0xF800 .r0) State.reset = .next t) ∧
    storeTarget (.stDirect 0xF800 .r0) State.reset = some 0xF800 ∧ ¬InStorage 0xF800 :=
  ⟨⟨_, rfl⟩, rfl, by decide, ⟨_, rfl⟩, rfl, by decide⟩

theorem witness_DevicesActOnlyOnAccessesInTheIORegion :
    (∃ t, exec (.push .r0) State.reset = .next t) ∧ storeTarget (.push .r0) State.reset = some 0xDFFF ∧
    InStorage 0xDFFF ∧ loadSource (.push .r0) State.reset ≠ some 0xF820 ∧
    loadSource (.push .r0) State.reset ≠ some 0xF810 ∧
    (∃ t, exec (.div .r0 .r7) State.reset = .next t) ∧ State.reset.reg .r7 ≠ 0 :=
  ⟨⟨_, rfl⟩, rfl, by decide, by decide, by decide, ⟨_, rfl⟩, by decide⟩

/-- R3 and R7 hold the address; the first and the last word of storage hold 0xBEEF. -/
def pointing (a : Word) (inp : List Byte) (eof : CharInEof) : State :=
  { at0100 [] [(.r3, a), (.r7, a)] false false false [(0x0000, 0xBEEF), (0xF7FF, 0xBEEF)] with inp := inp, eof := eof }

/-- Every clause of `loads`, with `a` the address that is read: the hypotheses are met. -/
abbrev LoadClausesMet (a : State → Word) : Prop :=
  (InStorage (a (pointing 0x0000 [] .block)) ∧
    (pointing 0x0000 [] .block).mem.readWord (a (pointing 0x0000 [] .block)) = some 0xBEEF) ∧
  (InStorage (a (pointing 0xF7FF [] .block)) ∧
    (pointing 0xF7FF [] .block).mem.readWord (a (pointing 0xF7FF [] .block)) = some 0xBEEF) ∧
  (InStorage (a (pointing 0xF7FE [] .block)) ∧
    (pointing 0xF7FE [] .block).mem.readWord (a (pointing 0xF7FE [] .block)) = none) ∧
  a (pointing 0xF810 [] .block) = 0xF810 ∧
  (a (pointing 0xF820 [0x00] .block) = 0xF820 ∧ (pointing 0xF820 [0x00] .block).inp = [0x00]) ∧
  (a (pointing 0xF820 [] (.word 0xFFFF)) = 0xF820 ∧ (pointing 0xF820 [] (.word 0xFFFF)).inp = [] ∧
    (pointing 0xF820 [] (.word 0xFFFF)).eof = .word 0xFFFF) ∧
  (a (pointing 0xF820 [] .block) = 0xF820 ∧ (pointing 0xF820 [] .block).inp = [] ∧
    (pointing 0xF820 [] .block).eof = .block) ∧
  (¬InStorage (a (pointing 0xF800 [] .block)) ∧ a (pointing 0xF800 [] .block) ≠ 0xF810 ∧
    a (pointing 0xF800 [] .block) ≠ 0xF820) ∧
  (¬InStorage (a (pointing 0xFFFF [] .block)) ∧ a (pointing 0xFFFF [] .block) ≠ 0xF810 ∧
    a (pointing 0xFFFF [] .block) ≠ 0xF820)

theorem witness_LdDirectLoadsTheWord : LoadClausesMet fun s => directAddress (s.reg .r3) := by decide
theorem witness_LdIndirectLoadsTheWord : LoadClausesMet fun s => indirectAddress s .r3 := by decide
theorem witness_PopLoadsAtTheStackPointer :
    LoadClausesMet popAddress ∧ Reg.r7 = .r7 ∧ Reg.r0 ≠ .r7 := by decide
theorem witness_RetPopsTheProgramCounter : LoadClausesMet popAddress := by decide

/-- Every clause of `stores`, with `a` the address that is written from a state that gives it the address wanted: the
hypotheses are met. -/
abbrev StoreClausesMet (a : State → Word) (i : Instr) (state : Word → State) : Prop :=
  InStorage (a (state 0x0000)) ∧ InStorage (a (state 0xF7FF)) ∧ a (state 0xF800) = 0xF800 ∧
  a (state 0xF801) = 0xF801 ∧ (a (state 0xF802) = 0xF802 ∧ (nextOf (exec i (state 0xF802))).isSome = true) ∧
  (¬InStorage (a (state 0xF803)) ∧ a (state 0xF803) ≠ 0xF800 ∧ a (state 0xF803) ≠ 0xF801 ∧ a (state 0xF803) ≠ 0xF802) ∧
  (¬InStorage (a (state 0xFFFF)) ∧ a (state 0xFFFF) ≠ 0xF800 ∧ a (state 0xFFFF) ≠ 0xF801 ∧ a (state 0xFFFF) ≠ 0xF802)

/-- R5 holds the address, SP the one after it, and memory holds strings at 0x0000, where R6 points, and at 0x0102. -/
def storing (a : Word) : State :=
  { at0100 [] [(.r5, a), (.r7, a + 1)] false false false [(0x0000, 0x0041), (0x0001, 0x0000), (0x0102, 0x0000)] with
    pc := 0x0100 }

theorem witness_StDirectStoresTheRegister :
    StoreClausesMet (fun s => directAddress (s.reg .r5)) (.stDirect 0xF802 .r6) storing := by decide
theorem witness_StIndirectStoresTheRegister :
    StoreClausesMet (fun s => indirectAddress s .r5) (.stIndirect .r5 .r6) storing := by decide
theorem witness_PushStoresBelowTheStackPointer : StoreClausesMet pushAddress (.push .r6) storing := by decide
theorem witness_CallPushesTheReturnAddress : StoreClausesMet pushAddress (.call 0xFFFF) storing := by decide

theorem witness_StoreIsSeenByLoadsAndFetches :
    (storeTarget (.push .r6) (storing 0x0000) = some 0x0000 ∧ InStorage 0x0000) ∧
    (storeTarget (.stIndirect .r5 .r6) (storing 0xF7FF) = some 0xF7FF ∧ InStorage 0xF7FF) ∧
    ((atTheEnd 5).mem.readWord 0xF7FF = some 5 ∧ storeTarget (.push .r0) (atTheEnd 5) ≠ some 0xF7FF ∧
      (nextOf (exec (.push .r0) (atTheEnd 5))).isSome = true) ∧
    (pointing 0xF7FF [] .block).mem.readWord 0xF7FF = some 0xBEEF ∧
    loadSource (.ldDirect .r0 0xF7FF) (pointing 0xF7FF [] .block) = some 0xF7FF ∧
    loadSource (.ldIndirect .r0 .r3) (pointing 0xF7FF [] .block) = some 0xF7FF ∧
    loadSource (.pop .r0) (pointing 0xF7FF [] .block) = some 0xF7FF ∧ Reg.r0 ≠ .r7 ∧
    loadSource .ret (pointing 0xF7FF [] .block) = some 0xF7FF := by decide

/-- The words of the scan's four clauses. -/
theorem witness_StoreIsSeenByStringScans :
    (atTheEnd 0x0000).mem.readWord 0xF7FF = some 0x0000 ∧
    ((atTheEnd 0x4100).mem.readWord 0xF7FF = some 0x4100 ∧ (0x4100 : Word) ≠ 0x0000 ∧ lowByte 0x4100 = 0x00) ∧
    ((storing 0xF000).mem.readWord 0x0000 = some 0x0041 ∧ lowByte 0x0041 ≠ 0x00 ∧
      scanString (storing 0xF000).mem 1 (0x0000 + 1) = .ok []) ∧
    ((atTheEnd 0x0041).mem.readWord 0xF7FF = some 0x0041 ∧
      scanString (atTheEnd 0x0041).mem 0 (0xF7FF + 1) = .error (.stringScanFault 0xF800)) :=
  ⟨by decide, by decide, ⟨by decide, by decide, rfl⟩, by decide, rfl⟩

theorem witness_StorageIsIdempotentDevicesAreNot :
    (InStorage 0xF7FF ∧ ∃ w t, memRead 0xF7FF (pointing 0xF7FF [] .block) = .value w t) ∧
    (State.reset.Inv ∧ ∃ t, memWrite 0xF7FF 1 State.reset = .ok t) ∧
    (¬InStorage 0xF800 ∧ ∃ t, memWrite 0xF800 1 State.reset = .ok t) ∧
    (∃ w t, memRead 0xF820 (pointing 0xF820 [0xFF] .block) = .value w t) ∧ (pointing 0xF820 [0xFF] .block).inp ≠ [] :=
  ⟨⟨by decide, _, _, rfl⟩, ⟨by decide, _, rfl⟩, ⟨by decide, _, rfl⟩, ⟨_, _, rfl⟩, by decide⟩

theorem witness_DivDivides :
    State.reset.reg .r7 ≠ 0 ∧ (at0100 [] [(.r0, 0x7FFF), (.r1, 0x7FFF)] false false false []).reg .r1 ≠ 0 ∧
    ((at0100 [] [(.r0, 0x7FFF), (.r1, 0x7FFF)] false false false []).reg .r0).toNat ≤ 32767 ∧
    ((at0100 [] [(.r0, 0x7FFF), (.r1, 0x7FFF)] false false false []).reg .r1).toNat ≤ 32767 := by decide

theorem witness_DivByZeroKeepsTheRegister : State.reset.reg .r1 = 0 := by decide

/-- The condition of each branch, and its opposite, at some flags. -/
theorem witness_BranchesTestTheirConditions :
    (at0100 [] [] true false true []).flags.z = true ∧ (at0100 [] [] true false true []).flags.c = true ∧
    (at0100 [] [] false true false []).flags.n = true ∧
    ((at0100 [] [] false false false []).flags.n = false ∧ (at0100 [] [] false false false []).flags.z = false) ∧
    (at0100 [] [] false false false []).flags.c = false := by decide

theorem witness_BranchAfterCompareMeansTheComparison :
    (∃ t, exec (.cmp .r0 .r1) State.reset = .next t ∧ (0x0000 : Word) ≠ t.pc + 2) ∧
    (-32768 ≤ (0x8000 : Word).toInt - (0x0000 : Word).toInt ∧ (0x8000 : Word).toInt - (0x0000 : Word).toInt ≤ 32767) ∧
    ¬(-32768 ≤ (0x8000 : Word).toInt - (0x0001 : Word).toInt ∧
      (0x8000 : Word).toInt - (0x0001 : Word).toInt ≤ 32767) :=
  ⟨⟨_, rfl, by decide⟩, by decide, by decide⟩

theorem witness_ReturnAndPopUndoCallAndPush :
    InStorage (State.reset.reg .r7 - 1) ∧ InStorage ((storing 0x0000).reg .r7 - 1) ∧
    InStorage ((storing 0xF7FF).reg .r7 - 1) ∧ Reg.r0 ≠ .r7 := by decide

theorem witness_NopOnlyAdvances : opcodeField 0x0FFF = 0 ∧ (0x0FFF : Word) ≠ 0x0000 := by decide

theorem witness_OutputDevicesEmitTheWordWritten :
    storeTarget (.stDirect 0xF800 .r6) (storing 0) = some 0xF800 ∧
    storeTarget (.stIndirect .r5 .r6) (storing 0xF800) = some 0xF800 ∧
    storeTarget (.push .r6) (storing 0xF801) = some 0xF801 ∧
    storeTarget (.call 0) (storing 0xF801) = some 0xF801 := by decide

theorem holdsText_nil (m : Memory) (a : Word) : holdsText m a [] := ⟨trivial, by simp⟩

theorem holdsText_one {m : Memory} {a w : Word} (ha : InStorage a) (hr : m.readWord a = some w) (hw : lowByte w ≠ 0) :
    holdsText m a [w] := ⟨⟨ha, hr, trivial⟩, by simpa using hw⟩

/-- A string of one character at 0x0000 whose scan meets a terminator, an unwritten word and, at the end of storage, the
I/O region. -/
theorem witness_StringDeviceEmitsTheString :
    storeTarget (.stDirect 0xF802 .r6) (storing 0) = some 0xF802 ∧
    (holdsText (storing 0).mem 0x0000 [0x0041] ∧ InStorage (0x0000 + BitVec.ofNat 16 1) ∧
      (storing 0).mem.readWord (0x0000 + BitVec.ofNat 16 1) = some 0x0000) ∧
    (holdsText (atTheEnd 0x0041).mem 0x0000 [] ∧ InStorage (0x0000 + BitVec.ofNat 16 0) ∧
      (atTheEnd 0x0041).mem.readWord (0x0000 + BitVec.ofNat 16 0) = none) ∧
    (holdsText (atTheEnd 0x0041).mem 0xF7FF [0x0041] ∧ ¬InStorage (0xF7FF + BitVec.ofNat 16 1)) :=
  ⟨by decide, ⟨holdsText_one (by decide) (by decide) (by decide), by decide, by decide⟩,
    ⟨holdsText_nil _ _, by decide, by decide⟩, holdsText_one (by decide) (by decide) (by decide), by decide⟩

theorem witness_StringScanStopsOnAHalfZeroWord :
    (holdsText (atTheEnd 0x4100).mem 0xF7FF [] ∧ InStorage (0xF7FF + BitVec.ofNat 16 0) ∧
      (atTheEnd 0x4100).mem.readWord (0xF7FF + BitVec.ofNat 16 0) = some 0x4100 ∧ (0x4100 : Word) ≠ 0x0000 ∧
      lowByte 0x4100 = 0x00) ∧
    (nextOf (exec (.stDirect 0xF802 .r6) (storing 0))).isSome = true :=
  ⟨⟨holdsText_nil _ _, by decide, by decide, by decide, by decide⟩, by decide⟩

theorem witness_WaitingLoadResumesWhenInputArrives :
    loadSource (.ldDirect .r7 0xF820) (pointing 0xF820 [] .block) = some 0xF820 ∧
    loadSource (.ldIndirect .r0 .r3) (pointing 0xF820 [] .block) = some 0xF820 ∧
    loadSource (.pop .r0) (pointing 0xF820 [] .block) = some 0xF820 ∧ Reg.r0 ≠ .r7 ∧
    loadSource (.pop .r7) (pointing 0xF820 [] .block) = some 0xF820 ∧
    loadSource .ret (pointing 0xF820 [] .block) = some 0xF820 ∧ Reg.r0 ∉ destRegs .ret ∧
    (pointing 0xF820 [] .block).inp = [] ∧ (pointing 0xF820 [] .block).eof = .block := by decide

theorem witness_StdoutIsTheEventsBytes : unsignedDecimal 0 = 0x30 :: [] ∧ (0x30 : Byte).toNat = 48 := by decide

theorem witness_AssembledStatementsAreTheInstructionsWords :
    valueWord [("end".toList, 0xF800)] (.label "end".toList) = some 0xF800 ∧
    itemWords [] (.instruction "LDI".toList [.reg .r0, .value (.literal (-32768))]) = some [0x1000, 0x8000] ∧
    (-32768 : Int) ≤ -32768 ∧ (65535 : Int) ≤ 65535 := by decide +kernel

theorem witness_AssembledWordsStandAtConsecutiveAddresses :
    (0 : Int) ≤ 0xF7FE ∧ (0xF7FE : Int) + [[0x8000, 0x0000]].flatten.length ≤ 0xF800 ∧
    (∀ v, Item.origin v ∉ [Item.words [.literal 0x8000, .literal 0]]) ∧
    [Item.words [.literal 0x8000, .literal 0]].map (itemWords []) = [[0x8000, 0x0000]].map some :=
  ⟨by decide, by decide, by simp, by decide⟩

/-- A label, an `.ORG` and a word. -/
theorem witness_LabelsNameTheNextWord :
    assembleLines ([] ++ ⟨some "a".toList, some (.origin (.literal 0xF7FF))⟩ ::
      [⟨none, some (.instruction "HALT".toList [])⟩]) = some ([] ++ [(0xF7FF, 0xF000)]) := by decide +kernel

end Sys2Proof.Tests
end

section
/-! What `exec` does from the same state with other flags (spec/10_state.md R27 to R30): the reads, the writes and the
shared shapes first, then every instruction in one statement, `exec_setFlags`. -/

namespace Sys2Proof.Machine

/-! ### Other flags under the shared operations -/

/-- The same outcome, the flags of the next state changed. -/
def mapFlags (change : Flags → Flags) : Result → Result
  | .next t => .next (t.setFlags (change t.flags))
  | .fault x => .fault x
  | .refused r => .refused r

/-- The same read, leaving its state with other flags. -/
def ReadResult.setFlags (f : Flags) : ReadResult → ReadResult
  | .value w t => .value w (t.setFlags f)
  | .blocked => .blocked
  | .fault x => .fault x

theorem charIn_setFlags (s : State) (f : Flags) : charIn (s.setFlags f) = (charIn s).setFlags f := by
  unfold charIn
  simp only [State.setFlags_inp, State.setFlags_eof]
  split
  · rfl
  · split <;> rfl

theorem deviceRead_setFlags (a : Word) (s : State) (f : Flags) :
    deviceRead a (s.setFlags f) = (deviceRead a s).setFlags f := by
  unfold deviceRead
  split
  · rfl
  · split
    · exact charIn_setFlags s f
    · rfl

theorem memRead_setFlags (a : Word) (s : State) (f : Flags) :
    memRead a (s.setFlags f) = (memRead a s).setFlags f := by
  unfold memRead
  simp only [State.setFlags_mem]
  split
  · split <;> rfl
  · exact deviceRead_setFlags a s f

theorem strOut_setFlags (v : Word) (s : State) (f : Flags) :
    strOut v (s.setFlags f) = (strOut v s).map (·.setFlags f) := by
  unfold strOut
  simp only [State.setFlags_mem]
  split <;> rfl

theorem deviceWrite_setFlags (a v : Word) (s : State) (f : Flags) :
    deviceWrite a v (s.setFlags f) = (deviceWrite a v s).map (·.setFlags f) := by
  unfold deviceWrite
  split
  · rfl
  · split
    · rfl
    · split
      · exact strOut_setFlags v s f
      · rfl

theorem memWrite_setFlags (a v : Word) (s : State) (f : Flags) :
    memWrite a v (s.setFlags f) = (memWrite a v s).map (·.setFlags f) := by
  unfold memWrite
  split
  · rfl
  · exact deviceWrite_setFlags a v s f

/-- A load whose continuation neither reads nor writes a flag neither reads nor writes one; a load that waits leaves the
flags it was given. -/
theorem withLoaded_setFlags {a : Word} {s : State} {f : Flags} {k k' : Word → State → Result}
    (hk : ∀ w u, k' w (u.setFlags f) = mapFlags (fun _ => f) (k w u)) :
    withLoaded a (s.setFlags f) k' = mapFlags (fun _ => f) (withLoaded a s k) := by
  unfold withLoaded
  rw [memRead_setFlags]
  cases memRead a s with
  | value w u => exact hk w u
  | blocked => rfl
  | fault x => rfl

/-- A store whose continuation neither reads nor writes a flag neither reads nor writes one. -/
theorem withStored_setFlags {a v : Word} {s : State} {f : Flags} {k k' : State → Result}
    (hk : ∀ u, k' (u.setFlags f) = mapFlags (fun _ => f) (k u)) :
    withStored a v (s.setFlags f) k' = mapFlags (fun _ => f) (withStored a v s k) := by
  unfold withStored
  rw [memWrite_setFlags]
  cases memWrite a v s with
  | ok u => exact hk u
  | error x => rfl

/-! ### The conditions of the branches -/

/-- The condition a conditional branch tests (R160 to R167); an instruction that is none tests nothing. -/
def branchCondition : Instr → Flags → Bool
  | .beq _, f => condEq f
  | .bne _, f => condNe f
  | .bgt _, f => condGt f
  | .blt _, f => condLt f
  | .bge _, f => condGe f
  | .ble _, f => condLe f
  | .bcs _, f => condCs f
  | .bcc _, f => condCc f
  | _, _ => false

theorem exec_of_isBranch {i : Instr} (hi : isBranch i = true) :
    ∃ addr, ∀ s, exec i s = branchIf (branchCondition i s.flags) addr s := by
  cases i with
  | beq addr | bne addr | bgt addr | blt addr | bge addr | ble addr | bcs addr | bcc addr => exact ⟨addr, fun _ => rfl⟩
  | _ => cases hi

theorem branchCondition_of_not_isBranch {i : Instr} (hi : isBranch i = false) (f : Flags) :
    branchCondition i f = false := by
  cases i with
  | beq | bne | bgt | blt | bge | ble | bcs | bcc => cases hi
  | _ => rfl

theorem branchCondition_setV (i : Instr) (f : Flags) (v : Bool) :
    branchCondition i { f with v := v } = branchCondition i f := by
  cases i <;> rfl

/-! ### Other flags under an instruction -/

/-- The flags an instruction leaves that writes those its row of R28 marks as in `new`, and keeps the others as in
`old`. -/
def flagsLeft (i : Instr) (s : State) (old new : Flags) : Flags where
  z := if writesZN i then new.z else old.z
  n := if writesZN i then new.n else old.n
  c := if writesC i s then new.c else old.c
  v := old.v

theorem flagsLeft_of_isBranch {i : Instr} (hi : isBranch i = true) (s : State) (old new : Flags) :
    flagsLeft i s old new = old := by
  cases i with
  | beq | bne | bgt | blt | bge | ble | bcs | bcc => rfl
  | _ => cases hi

theorem flagsLeft_div_zero {rd rs : Reg} {s : State} (hz : s.reg rs = 0) (old : Flags) :
    flagsLeft (.div rd rs) s old = fun new => { new with v := old.v } := by
  funext new
  simp [flagsLeft, writesZN, writesC, hz]

theorem flagsLeft_div_nonzero {rd rs : Reg} {s : State} (hz : s.reg rs ≠ 0) (old : Flags) :
    flagsLeft (.div rd rs) s old = fun new => { old with z := new.z, n := new.n } := by
  have hc : writesC (.div rd rs) s = false := beq_eq_false_iff_ne.mpr hz
  funext new
  simp [flagsLeft, writesZN, hc]

/-- The one instruction whose row of R28 depends on its operands: C is written by a zero divisor alone (R131). -/
theorem execDiv_setFlags (rd rs : Reg) (s : State) (f : Flags) :
    execDiv rd rs (s.setFlags f) = mapFlags (flagsLeft (.div rd rs) s f) (execDiv rd rs s) := by
  unfold execDiv
  rw [State.setFlags_reg]
  by_cases hz : s.reg rs = 0
  · rw [if_pos hz, if_pos hz, flagsLeft_div_zero hz]; rfl
  · rw [if_neg hz, if_neg hz, flagsLeft_div_nonzero hz]; rfl

theorem branchIf_setFlags (taken : Bool) (addr : Word) (s : State) (f : Flags) :
    branchIf taken addr (s.setFlags f) = mapFlags (fun _ => f) (branchIf taken addr s) := rfl

/-- R28 to R30 in one: with other flags under which it branches as before, an instruction does the same; it leaves the
flags its row marks as it left them, and those its row does not mark as it finds them. -/
theorem exec_setFlags (i : Instr) (s : State) (f : Flags) (hf : branchCondition i f = branchCondition i s.flags) :
    exec i (s.setFlags f) = mapFlags (flagsLeft i s f) (exec i s) := by
  cases i with
  | beq addr | bne addr | bgt addr | blt addr | bge addr | ble addr | bcs addr | bcc addr =>
    exact (branchIf_setFlags _ addr s f).trans (congrArg (fun b => mapFlags (fun _ => f) (branchIf b addr s)) hf)
  | ldDirect | ldIndirect | pop | ret => exact withLoaded_setFlags fun _ _ => rfl
  | stDirect | stIndirect => exact withStored_setFlags fun _ => rfl
  | push | call => exact withStored_setFlags (s := s.decrementSp) fun _ => rfl
  | div rd rs => exact execDiv_setFlags rd rs s f
  | _ => rfl

theorem exec_setFlags_next {i : Instr} {s t : State} (h : exec i s = .next t) {f : Flags}
    (hf : branchCondition i f = branchCondition i s.flags) :
    exec i (s.setFlags f) = .next (t.setFlags (flagsLeft i s f t.flags)) := by
  rw [exec_setFlags i s f hf, h]; rfl

theorem exec_setFlags_fault {i : Instr} {s : State} {x : Fault} (h : exec i s = .fault x) {f : Flags}
    (hf : branchCondition i f = branchCondition i s.flags) : exec i (s.setFlags f) = .fault x := by
  rw [exec_setFlags i s f hf, h]; rfl

/-- The flags an instruction's row does not mark are as before: `exec_setFlags_next` at the flags the state has. -/
theorem exec_flags {i : Instr} {s t : State} (h : exec i s = .next t) : t.flags = flagsLeft i s s.flags t.flags := by
  have same : t = t.setFlags (flagsLeft i s s.flags t.flags) :=
    Host.Outcome.next.inj (h.symm.trans (exec_setFlags_next h (f := s.flags) rfl))
  exact congrArg State.flags same

/-- A branch completes, and keeps whatever flags it finds. -/
theorem exec_setFlags_of_isBranch {i : Instr} (hi : isBranch i = true) {s : State} {f : Flags}
    (hf : branchCondition i f = branchCondition i s.flags) :
    ∃ t, exec i s = .next t ∧ exec i (s.setFlags f) = .next (t.setFlags f) := by
  obtain ⟨addr, hexec⟩ := exec_of_isBranch hi
  refine ⟨_, hexec s, ?_⟩
  rw [exec_setFlags_next (hexec s) hf, flagsLeft_of_isBranch hi]

/-! ### V (R29) -/

theorem exec_keeps_v {i : Instr} {s t : State} (h : exec i s = .next t) : t.flags.v = s.flags.v := by
  rw [exec_flags h]; rfl

theorem step_keeps_v {s t : State} (h : step s = .next t) : t.flags.v = s.flags.v := by
  obtain ⟨-, rfl⟩ | ⟨-, w0, i, -, hexec⟩ := step_next h
  · rfl
  · simpa using exec_keeps_v hexec

theorem reachable_v {b : Boot} {s : State} (h : Reachable b s) : s.flags.v = b.flags.v := by
  induction h with
  | start => rfl
  | onward _ hstep ih => exact (step_keeps_v hstep).trans ih

theorem exec_setV_next {i : Instr} {s t : State} (h : exec i s = .next t) (v : Bool) :
    exec i (s.setFlags { s.flags with v := v }) = .next (t.setFlags { t.flags with v := v }) := by
  have left : flagsLeft i s { s.flags with v := v } t.flags = { t.flags with v := v } :=
    congrArg (fun f : Flags => { f with v := v }) (exec_flags h).symm
  rw [exec_setFlags_next h (branchCondition_setV i s.flags v), left]

/-- Settles O14: no instruction's row marks V, no branch's condition mentions it, and runs are inductive. -/
theorem overflowFlagIsNeverWrittenOrRead : Obligations.OverflowFlagIsNeverWrittenOrRead :=
  ⟨fun _ _ => step_keeps_v, fun _ _ => reachable_v, fun i s v =>
    ⟨fun _ h => exec_setV_next h v, fun _ h => exec_setFlags_fault h (branchCondition_setV i s.flags v)⟩⟩

/-! ### Who reads a flag (R30) -/

/-- The flags each branch's condition is made of. -/
theorem branchCondition_congr {i : Instr} {addr : Word} {f g : Flags}
    (h : (f.z = g.z ∧ (i = .beq addr ∨ i = .bne addr)) ∨
      (f.z = g.z ∧ f.n = g.n ∧ (i = .bgt addr ∨ i = .ble addr)) ∨
      (f.n = g.n ∧ (i = .blt addr ∨ i = .bge addr)) ∨
      (f.c = g.c ∧ (i = .bcs addr ∨ i = .bcc addr))) :
    isBranch i = true ∧ branchCondition i f = branchCondition i g := by
  obtain ⟨hz, rfl | rfl⟩ | ⟨hz, hn, rfl | rfl⟩ | ⟨hn, rfl | rfl⟩ | ⟨hc, rfl | rfl⟩ := h
  case inl.inl => exact ⟨rfl, hz⟩
  case inl.inr => exact ⟨rfl, congrArg (!·) hz⟩
  case inr.inl.inl => exact ⟨rfl, congrArg₂ (fun n z => !n && !z) hn hz⟩
  case inr.inl.inr => exact ⟨rfl, congrArg₂ (· || ·) hn hz⟩
  case inr.inr.inl.inl => exact ⟨rfl, hn⟩
  case inr.inr.inl.inr => exact ⟨rfl, congrArg (!·) hn⟩
  case inr.inr.inr.inl => exact ⟨rfl, hc⟩
  case inr.inr.inr.inr => exact ⟨rfl, congrArg (!·) hc⟩

/-- One flag of `flagsLeft`, as R30 puts it: the same whatever the flags are, or the flag as it was. -/
theorem ite_fixed_or_own {α β : Type} (p : Prop) [Decidable p] (new : β) (own : α → β) :
    (∀ x, (if p then new else own x) = new) ∨ ∀ x, (if p then new else own x) = own x := by
  by_cases hp : p
  · exact .inl fun _ => if_pos hp
  · exact .inr fun _ => if_neg hp

/-- Settles O18: the flags enter an instruction only through `branchCondition`, which is constant but for the eight
branches. -/
theorem onlyBranchesReadFlags : Obligations.OnlyBranchesReadFlags := by
  refine ⟨fun i s hi => ?_, fun addr s f i h => ?_⟩
  · have blind : ∀ f, branchCondition i f = branchCondition i s.flags := fun f =>
      (branchCondition_of_not_isBranch hi f).trans (branchCondition_of_not_isBranch hi s.flags).symm
    refine ⟨fun t h => ⟨fun f => flagsLeft i s f t.flags, fun f => exec_setFlags_next h (blind f), ?_⟩,
      fun x h f => exec_setFlags_fault h (blind f)⟩
    exact ⟨ite_fixed_or_own _ _ Flags.z, ite_fixed_or_own _ _ Flags.n, ite_fixed_or_own _ _ Flags.c, .inr fun _ => rfl⟩
  · obtain ⟨hb, hf⟩ := branchCondition_congr h
    exact exec_setFlags_of_isBranch hb hf

end Sys2Proof.Machine
end

section
/-! What a decoded first word tells of the instruction's words (spec/30_encoding.md R82 to R89): the word is the canonical
one (decision D14, log entry 23), and its OPCODE and Mode fix the length. -/

namespace Sys2Proof

/-- The words of the instruction are the first word `w` and, where it takes one, the second word as it stands (R82). -/
def Head.EncodedBy (w : Word) : Head → Prop
  | .complete i => encodeWords i = [w]
  | .needsWord build => ∀ w1, encodeWords (build w1) = [w, w1]

/-! ### The formats of R89: a field that is not used is zero in the canonical word -/

theorem encodedBy_of_fields {w : Word} {h : Head} {op mode : Nat} {rd rs : BitVec 3} (hop : (opcodeField w).toNat = op)
    (hmode : (modeField w).toNat = mode) (hrd : rdField w = rd) (hrs : rsField w = rs)
    (he : h.EncodedBy (packWord (.ofNat 4 op) rd rs (.ofNat 6 mode))) : h.EncodedBy w := by
  rwa [← hop, ← hmode, ← hrd, ← hrs, BitVec.ofNat_toNat, BitVec.ofNat_toNat, BitVec.setWidth_eq, BitVec.setWidth_eq,
    packWord_fields] at he

theorem noFields_encodedBy {w : Word} {h k : Head} {op mode : Nat} (hd : noFields w k = .ok h)
    (hop : (opcodeField w).toNat = op) (hmode : (modeField w).toNat = mode)
    (he : k.EncodedBy (packWord (.ofNat 4 op) 0 0 (.ofNat 6 mode))) : h.EncodedBy w := by
  unfold noFields at hd
  split at hd
  case isTrue hz => cases hd; exact encodedBy_of_fields hop hmode hz.1 hz.2 he
  case isFalse => cases hd

theorem onlyRd_encodedBy {w : Word} {h k : Head} {op mode : Nat} (hd : onlyRd w k = .ok h)
    (hop : (opcodeField w).toNat = op) (hmode : (modeField w).toNat = mode)
    (he : k.EncodedBy (packWord (.ofNat 4 op) (Reg.ofField (rdField w)).field 0 (.ofNat 6 mode))) : h.EncodedBy w := by
  unfold onlyRd at hd
  split at hd
  case isTrue hz => cases hd; exact encodedBy_of_fields hop hmode (Reg.field_ofField _).symm hz he
  case isFalse => cases hd

theorem onlyRs_encodedBy {w : Word} {h k : Head} {op mode : Nat} (hd : onlyRs w k = .ok h)
    (hop : (opcodeField w).toNat = op) (hmode : (modeField w).toNat = mode)
    (he : k.EncodedBy (packWord (.ofNat 4 op) 0 (Reg.ofField (rsField w)).field (.ofNat 6 mode))) : h.EncodedBy w := by
  unfold onlyRs at hd
  split at hd
  case isTrue hz => cases hd; exact encodedBy_of_fields hop hmode hz (Reg.field_ofField _).symm he
  case isFalse => cases hd

theorem bothFields_encodedBy {w : Word} {h k : Head} {op mode : Nat} (hd : bothFields w k = .ok h)
    (hop : (opcodeField w).toNat = op) (hmode : (modeField w).toNat = mode)
    (he : k.EncodedBy
      (packWord (.ofNat 4 op) (Reg.ofField (rdField w)).field (Reg.ofField (rsField w)).field (.ofNat 6 mode))) :
    h.EncodedBy w := by
  cases hd
  exact encodedBy_of_fields hop hmode (Reg.field_ofField _).symm (Reg.field_ofField _).symm he

/-- A decoded first word is the canonical one: the decoder's arms by format. -/
theorem decodeHead_encodedBy {w : Word} {h : Head} (hd : decodeHead w = .ok h) : h.EncodedBy w := by
  unfold decodeHead at hd
  split at hd
  case h_1 hop hmode | h_35 hop hmode | h_37 hop hmode => exact noFields_encodedBy hd hop hmode rfl
  case h_23 hop hmode | h_24 hop hmode | h_25 hop hmode | h_26 hop hmode | h_27 hop hmode | h_28 hop hmode |
      h_29 hop hmode | h_30 hop hmode | h_31 hop hmode | h_34 hop hmode =>
    exact noFields_encodedBy hd hop hmode fun _ => rfl
  case h_12 hop hmode | h_13 hop hmode | h_19 hop hmode | h_33 hop hmode => exact onlyRd_encodedBy hd hop hmode rfl
  case h_2 hop hmode | h_3 hop hmode | h_14 hop hmode | h_15 hop hmode =>
    exact onlyRd_encodedBy hd hop hmode fun _ => rfl
  case h_32 hop hmode => exact onlyRs_encodedBy hd hop hmode rfl
  case h_5 hop hmode => exact onlyRs_encodedBy hd hop hmode fun _ => rfl
  case h_38 | h_39 | h_40 => cases hd
  all_goals
    rename_i hop hmode
    exact bothFields_encodedBy hd hop hmode rfl

/-! ### The length of an instruction (R83) -/

/-- The table of R83: how many words an instruction has, by the OPCODE and Mode of its first word. -/
def tableLength (w : Word) : Nat :=
  match (opcodeField w).toNat, (modeField w).toNat with
  | 0x1, 0x00 => 2
  | 0x1, 0x01 => 2
  | 0x2, 0x00 => 2
  | 0x4, 0x06 => 2
  | 0x4, 0x07 => 2
  | 0x7, _ => 2
  | 0x8, _ => 2
  | 0xA, _ => 2
  | _, _ => 1

theorem wordCount_eq_tableLength {i : Instr} {w : Word} {rest : List Word} (h : encodeWords i = w :: rest) :
    wordCount i = tableLength w := by
  cases i <;> cases h <;> simp [wordCount, tableLength]

theorem wordCount_of_encodeWords {i : Instr} {ws : List Word} (h : encodeWords i = ws) : wordCount i = ws.length := by
  rw [← encodeWords_length, h]

theorem Head.EncodedBy.words {w : Word} {h : Head} (he : h.EncodedBy w) : h.words = tableLength w := by
  cases h with
  | complete i => exact (wordCount_of_encodeWords he).symm.trans (wordCount_eq_tableLength he)
  | needsWord build => exact (wordCount_of_encodeWords (he 0)).symm.trans (wordCount_eq_tableLength (he 0))

end Sys2Proof

namespace Sys2Proof.Machine

/-- A first word that does not decode is a fault before the second is fetched (R204). -/
theorem fetchInstr_illegal {s : State} {w : Word} {e : Reject} (hf : fetch s.pc s = .ok w)
    (hd : decodeHead w = .error e) : fetchInstr s = .error (.illegalInstruction s.pc w) := by simp [fetchInstr, hf, hd]

/-- Settles O5: a decoded word is the canonical one, and the encoder's words have the lengths of the table. -/
theorem lengthIsAFunctionOfOpcodeAndMode : Obligations.LengthIsAFunctionOfOpcodeAndMode := by
  refine ⟨fun w h hd => (decodeHead_encodedBy hd).words, fun w i hd => ?_, fun w w1 build hd => ?_,
    fun s w e hs hf hd => step_fetchFault hs (fetchInstr_illegal hf hd)⟩
  · have he := decodeHead_encodedBy hd
    exact ⟨wordCount_of_encodeWords he, he⟩
  · have he := decodeHead_encodedBy hd w1
    exact ⟨wordCount_of_encodeWords he, he⟩

end Sys2Proof.Machine
end

section
/-! What a statement, a directive and a program's lines place (spec/30_encoding.md R97 to R103). -/

namespace Sys2Proof.Machine

/-! ### Statements (R100) -/

/-- Every mnemonic of the two tables has the shape its row gives. -/
theorem shapeOf_of_mem {entry : String × OperandShape} (h : entry ∈ registerMnemonics ++ valueMnemonics) :
    shapeOf entry.1.toList = some entry.2 := by
  have distinct : ((registerMnemonics ++ valueMnemonics).map (·.1)).Nodup := by decide
  cases hs : shapeOf entry.1.toList with
  | none =>
    exact absurd (beq_self_eq_true _) (List.find?_eq_none.mp (Option.map_eq_none_iff.mp hs) entry h)
  | some shape =>
    obtain ⟨name, hm, hn⟩ := shapeOf_mem hs
    have : (name, shape) = entry := List.inj_on_of_nodup_map distinct hm h (String.toList_inj.mp hn)
    rw [← this]

/-- The statements that have words: a mnemonic of R100's table, with operands that its shape takes. -/
theorem itemWords_instruction {labels : List (List Char × Word)} {mnemonic : List Char} {operands : List Operand}
    {ws : List Word} (h : itemWords labels (.instruction mnemonic operands) = some ws) :
    ∃ shape i, shapeOf mnemonic = some shape ∧ buildInstr labels shape operands = some i ∧ ws = encodeWords i := by
  simp only [itemWords] at h
  split at h
  · rename_i shape hs
    obtain ⟨i, hi, rfl⟩ := Option.map_eq_some_iff.mp h
    exact ⟨shape, i, hs, hi, rfl⟩
  · cases h

theorem literalWord_toNat {n : Int} (hl : -32768 ≤ n) (hu : n ≤ 65535) :
    ∃ w, literalWord n = some w ∧ (w.toNat : Int) = n % 65536 := by
  refine ⟨BitVec.ofInt 16 n, if_pos ⟨hl, hu⟩, ?_⟩
  rw [BitVec.toNat_ofInt]
  omega

/-- Settles O56: `row` gives each mnemonic's shape, under which its operands select the instruction named; and a statement
that has words has a row. -/
theorem assembledStatementsAreTheInstructionsWords : Obligations.AssembledStatementsAreTheInstructionsWords := by
  refine ⟨fun labels rd rs v w hv => ?_, fun labels mnemonic operands ws h => ?_,
    fun labels n => literalWord_toNat, fun _ _ => rfl⟩
  · have row : ∀ entry ∈ registerMnemonics ++ valueMnemonics, shapeOf entry.1.toList = some entry.2 :=
      fun _ => shapeOf_of_mem
    simp only [registerMnemonics, valueMnemonics, List.cons_append, List.nil_append, List.forall_mem_cons] at row
    simp only [statementWords, itemWords, row, buildInstr, hv, Option.map_some, and_self]
  · obtain ⟨shape, i, hs, -, rfl⟩ := itemWords_instruction h
    obtain ⟨name, hm, rfl⟩ := shapeOf_mem hs
    exact ⟨⟨i, rfl⟩, List.mem_map_of_mem
      ((show (registerMnemonics ++ valueMnemonics).map (·.1) ⊆ _ by decide) (List.mem_map_of_mem hm))⟩

/-! ### Directives and unlabelled lines (R101, R102) -/

theorem mapM_eq_some_iff_map_eq {α β : Type} {f : α → Option β} {xs : List α} : ∀ {ys : List β},
    xs.mapM f = some ys ↔ xs.map f = ys.map some := by
  induction xs with
  | nil => intro ys; cases ys <;> simp
  | cons x xs ih =>
    intro ys
    cases ys <;> simp [← ih, Option.bind_eq_some_iff]

theorem imageAt_addresses (ws : List Word) : ∀ a : Nat,
    (imageAt (BitVec.ofNat 16 a) ws).map (·.1) = (List.range' a ws.length).map (BitVec.ofNat 16) := by
  induction ws with
  | nil => intro a; rfl
  | cons w ws ih =>
    intro a
    have next : BitVec.ofNat 16 a + 1 = BitVec.ofNat 16 (a + 1) := by rw [BitVec.ofNat_add]; rfl
    rw [imageAt_cons, next, List.map_cons, ih (a + 1)]
    rfl

/-- Words within the address space stand at as many addresses. -/
theorem imageAt_nodup {a : Nat} {ws : List Word} (h : a + ws.length ≤ 65536) :
    ((imageAt (BitVec.ofNat 16 a) ws).map (·.1)).Nodup := by
  rw [imageAt_addresses]
  refine List.Nodup.map_on (fun x hx y hy hxy => ?_) (List.nodup_range')
  rw [List.mem_range'_1] at hx hy
  have := congrArg BitVec.toNat hxy
  rwa [BitVec.toNat_ofNat, BitVec.toNat_ofNat, Nat.mod_eq_of_lt (by omega), Nat.mod_eq_of_lt (by omega)] at this

theorem positionAfter_words {labels : List (List Char × Word)} {a : Nat} {item : Item} {ws : List Word}
    (ho : ∀ v, item ≠ .origin v) (h : itemWords labels item = some ws) :
    positionAfter labels (some a) item = some (a + ws.length) := by
  cases item with
  | origin v => exact (ho v rfl).elim
  | _ => simp only [positionAfter, itemSize_of_itemWords h]

/-- A line that has an item and no label. -/
def unlabelled (item : Item) : Line := ⟨none, some item⟩

theorem placeLines_unlabelled {labels : List (List Char × Word)} {items : List Item} :
    ∀ {a : Nat} {wss : List (List Word)}, (∀ v, .origin v ∉ items) → items.map (itemWords labels) = wss.map some →
    a + wss.flatten.length ≤ 0xF800 →
    placeLines labels (some a) (items.map unlabelled) = some (imageAt (BitVec.ofNat 16 a) wss.flatten) := by
  induction items with
  | nil =>
    intro a wss _ hw _
    rw [List.map_eq_nil_iff.mp hw.symm]
    rfl
  | cons item items ih =>
    intro a wss ho hw hle
    obtain ⟨ws, wss, rfl⟩ : ∃ ws rest, wss = ws :: rest := List.exists_cons_of_ne_nil (by rintro rfl; cases hw)
    obtain ⟨hitem, hitems⟩ := List.cons_eq_cons.mp hw
    rw [List.flatten_cons, List.length_append] at hle
    have after := positionAfter_words (a := a) (fun v hv => ho v (by simp [hv])) hitem
    have lower := ih (fun v hv => ho v (List.mem_cons_of_mem _ hv)) hitems (a := a + ws.length) (by omega)
    rw [List.map_cons, List.flatten_cons, imageAt_append, placeLines_cons]
    exact .inr ⟨item, _, _, rfl, placeItem_fits hitem (by omega), after ▸ lower, rfl⟩

theorem labelsFrom_unlabelled (known : List (List Char × Word)) {lines : List Line} : ∀ {at? : Option Nat},
    (∀ line ∈ lines, line.label = none) → (labelsFrom known at? lines).2 = [] := by
  induction lines with
  | nil => intros; rfl
  | cons line lines ih =>
    intro at? h
    have below : ∀ {at? : Option Nat}, (labelsFrom known at? lines).2 = [] :=
      ih fun l hl => h l (List.mem_cons_of_mem _ hl)
    have own : ∀ next, labelled line next = [] := fun next => by simp [labelled, h line List.mem_cons_self]
    cases hi : line.item with
    | none => rw [labelsFrom_noItem _ _ _ hi, own, below]; rfl
    | some item => rw [labelsFrom_item _ _ _ hi, own, below]; rfl

theorem labelTable_unlabelled {lines : List Line} (h : ∀ line ∈ lines, line.label = none) : labelTable lines = [] :=
  labelsFrom_unlabelled _ h

/-- Lines without labels have the image that they place, where no two words stand at one address. -/
theorem assembleLines_unlabelled {lines : List Line} {image : Image} (h : ∀ line ∈ lines, line.label = none)
    (hp : placeLines [] none lines = some image) (hn : (image.map (·.1)).Nodup) : assembleLines lines = some image := by
  have table := labelTable_unlabelled h
  have names : lines.filterMap (·.label) = [] := List.filterMap_eq_nil_iff.mpr h
  rw [assembleLines_some, table, names]
  exact ⟨List.nodup_nil, labelsFrom_unlabelled _ h, hp, hn⟩

/-- A leading `.ORG` places nothing and gives the position, whatever it was before. -/
theorem placeLines_origin {labels : List (List Char × Word)} {n : Nat} {rest : List Line} {at? : Option Nat}
    (hn : n ≤ 0xFFFF) :
    placeLines labels at? (unlabelled (.origin (.literal n)) :: rest) = placeLines labels (some n) rest := by
  have hv : valueWord labels (.literal n) = some (BitVec.ofNat 16 n) := by
    rw [← BitVec.ofInt_natCast]
    exact if_pos (by omega)
  have hpos : positionAfter labels at? (.origin (.literal n)) = some n := by
    rw [positionAfter, hv, Option.map_some, BitVec.toNat_ofNat, Nat.mod_eq_of_lt (by omega)]
  have hempty : placeItem labels at? (.origin (.literal n)) = some [] :=
    placeItem_empty at? (by rw [itemWords, hv]; rfl)
  ext image
  rw [placeLines_cons]
  simp [unlabelled, hpos, hempty]

/-- Settles O57: no line has a label, the first gives the position, and each item's words end where the next one's begin. -/
theorem assembledWordsStandAtConsecutiveAddresses : Obligations.AssembledWordsStandAtConsecutiveAddresses := by
  refine ⟨fun labels vs ws => mapM_eq_some_iff_map_eq, fun labels cs => ⟨_, rfl, by simp⟩, ?_⟩
  intro n items wss hn hle ho hw
  lift n to Nat using hn
  rw [BitVec.ofInt_natCast]
  have placed := placeLines_unlabelled ho hw (a := n) (by omega)
  refine assembleLines_unlabelled ?_ ((placeLines_origin (by omega)).trans placed) (imageAt_nodup (by omega))
  simp

/-! ### Labels (R97, R99) -/

/-- A line's label names the address of the next word from the line on. -/
theorem labelsFrom_cons (known : List (List Char × Word)) (at? : Option Nat) (line : Line) (rest : List Line) :
    ∃ below, (labelsFrom known at? (line :: rest)).2 =
      labelled line (labelsFrom known at? (line :: rest)).1 ++ below := by
  cases hi : line.item with
  | none => rw [labelsFrom_noItem known at? rest hi]; exact ⟨_, rfl⟩
  | some item => rw [labelsFrom_item known at? rest hi]; exact ⟨_, rfl⟩

/-- Settles O58: the labels of a program with an image are those of the lines above, none of which has this name, and then
this one with the address that `labelsFrom_next` finds the next word placed at. -/
theorem labelsNameTheNextWord : Obligations.LabelsNameTheNextWord := by
  intro above below name item image h
  obtain ⟨hnodup, hlabels, hplaced, -⟩ := assembleLines_some.mp h
  obtain ⟨between, upper, lower, first, hupper, hlower, rfl, hfirst, habove⟩ := placeLines_append hplaced
  refine ⟨upper, lower, hupper, rfl, ?_⟩
  rintro cell rest rfl
  obtain ⟨a, hnext, haddr⟩ := labelsFrom_next hlower
  obtain ⟨further, hcons⟩ :=
    labelsFrom_cons (labelTable (above ++ ⟨some name, item⟩ :: below)) between ⟨some name, item⟩ below
  have fresh : ∀ entry ∈ first, name ≠ entry.1 := by
    rintro entry he rfl
    obtain ⟨line, hl, hn⟩ := habove entry he
    simp only [List.filterMap_append, List.filterMap_cons] at hnodup
    exact (List.disjoint_of_nodup_append hnodup) (List.mem_filterMap.mpr ⟨line, hl, hn⟩) List.mem_cons_self
  have table : labelTable (above ++ ⟨some name, item⟩ :: below) = first ++ (name, cell.1) :: further := by
    rw [← hlabels, hfirst, hcons, hnext, haddr]; rfl
  rw [valueWord_label, List.lookup_eq_some_iff]
  exact ⟨first, further, table, fun entry he => bne_iff_ne.mpr (fresh entry he)⟩

end Sys2Proof.Machine
end

section
/-! LDI, LD, ST and MOV (spec/40_data_transfer.md): what a data read and a data write do at each address (R58, R211 to
R222), then `loads` and `stores` for every instruction whose meaning is one such access, then the statements. -/

namespace Sys2Proof

theorem lowByte_eq_setWidth (w : Word) : lowByte w = w.setWidth 8 :=
  (BitVec.setWidth_eq_extractLsb' (by decide)).symm

end Sys2Proof

namespace Sys2Proof.Machine

/-! ### The encoding as a row's base word with register numbers put in (R85) -/

theorem packWord_rd (op : BitVec 4) (rd : Reg) (mode : BitVec 6) :
    packWord op rd.field 0 mode = withRd (packWord op 0 0 mode) rd := by
  simp [packWord, withRd, BitVec.or_assoc, BitVec.or_comm]

theorem packWord_rs (op : BitVec 4) (rs : Reg) (mode : BitVec 6) :
    packWord op 0 rs.field mode = withRs (packWord op 0 0 mode) rs := by
  simp [packWord, withRs, BitVec.or_assoc, BitVec.or_comm]

theorem packWord_rd_rs (op : BitVec 4) (rd rs : Reg) (mode : BitVec 6) :
    packWord op rd.field rs.field mode = withRs (withRd (packWord op 0 0 mode) rd) rs := by
  simp only [packWord, withRd, withRs, BitVec.ofNat_eq_ofNat, BitVec.setWidth_zero, BitVec.zero_shiftLeft,
    BitVec.or_zero]
  ac_rfl

/-! ### A data read at each address (R58, R211, R213, R220 to R222) -/

theorem memRead_unwritten {a : Word} {s : State} (ha : InStorage a) (h : s.mem.readWord a = none) :
    memRead a s = .fault (.uninitialisedRead a) := by
  simp [memRead, ha, h]

theorem memRead_timer (s : State) : memRead 0xF810 s = .value (Config.anyWord s.draws) (s.drawn 1) := rfl

theorem memRead_char {s : State} {b : Byte} {rest : List Byte} (h : s.inp = b :: rest) :
    memRead 0xF820 s = .value (b.setWidth 16) (s.setInput rest) := by
  show charIn s = _
  rw [charIn, h]

theorem memRead_eof_word {s : State} {w : Word} (h : s.inp = []) (he : s.eof = .word w) :
    memRead 0xF820 s = .value w s := by
  show charIn s = _
  simp only [charIn, h, he]

theorem memRead_eof_block {s : State} (h : s.inp = []) (he : s.eof = .block) : memRead 0xF820 s = .blocked := by
  show charIn s = _
  simp only [charIn, h, he]

theorem memRead_no_reader {a : Word} (s : State) (ha : ¬InStorage a) (ht : a ≠ 0xF810) (hc : a ≠ 0xF820) :
    memRead a s = .fault (.badMMIOAccess a .read) := by
  rw [memRead, if_neg ha, deviceRead, if_neg ht, if_neg hc]

theorem withLoaded_value {a w : Word} {s u : State} {k : Word → State → Result} (h : memRead a s = .value w u) :
    withLoaded a s k = k w u := by
  rw [withLoaded, h]

theorem withLoaded_blocked {a : Word} {s : State} {k : Word → State → Result} (h : memRead a s = .blocked) :
    withLoaded a s k = .next s := by
  rw [withLoaded, h]

theorem withLoaded_fault {a : Word} {s : State} {k : Word → State → Result} {f : Fault} (h : memRead a s = .fault f) :
    withLoaded a s k = .fault f := by
  rw [withLoaded, h]

/-- An instruction that is one data read and then completes: a read leaves its state with at most a byte of input gone
and a free value drawn, and what the instruction makes of that state is all there is to know. -/
theorem loads_of_withLoaded {i : Instr} {a : Word} {s : State} {finish : Word → State → State}
    {deliver : Word → State → State → Prop} (hexec : exec i s = withLoaded a s fun w u => .next (finish w u))
    (hfinish : ∀ w bs k, deliver w ((s.setInput bs).drawn k) (finish w ((s.setInput bs).drawn k))) :
    loads i a s deliver := by
  unfold loads
  rw [hexec]
  refine ⟨fun w ha hw => ?storage, fun ha hw => ?unwritten, ?timer, ?char, ?eofWord, ?eofBlock, fun ha ht hc => ?none⟩
  case storage => exact ⟨_, withLoaded_value (memRead_storage ha hw), hfinish w s.inp 0⟩
  case unwritten => exact withLoaded_fault (memRead_unwritten ha hw)
  case timer =>
    rintro rfl
    exact ⟨_, withLoaded_value (memRead_timer s), hfinish _ s.inp 1⟩
  case char =>
    rintro b rest rfl hb
    exact ⟨_, withLoaded_value (memRead_char hb), hfinish _ rest 0⟩
  case eofWord =>
    rintro w rfl hnil he
    exact ⟨_, withLoaded_value (memRead_eof_word hnil he), hfinish w s.inp 0⟩
  case eofBlock =>
    rintro rfl hnil he
    exact withLoaded_blocked (memRead_eof_block hnil he)
  case none => exact withLoaded_fault (memRead_no_reader s ha ht hc)

/-! ### A data write at each address (R58, R211, R213 to R215) -/

theorem memWrite_charOut (v : Word) (s : State) : memWrite 0xF800 v s = .ok (s.emit (.charOut (v.setWidth 8))) :=
  congrArg (fun b => Except.ok (s.emit (.charOut b))) (lowByte_eq_setWidth v)

theorem memWrite_intOut (v : Word) (s : State) : memWrite 0xF801 v s = .ok (s.emit (.intOut v)) := rfl

theorem memWrite_no_writer {a : Word} (v : Word) (s : State) (ha : ¬InStorage a) (hc : a ≠ 0xF800) (hi : a ≠ 0xF801)
    (hs : a ≠ 0xF802) : memWrite a v s = .error (.badMMIOAccess a .write) := by
  rw [memWrite, if_neg ha, deviceWrite, if_neg hc, if_neg hi, if_neg hs]

theorem withStored_ok {a v : Word} {s u : State} {k : State → Result} (h : memWrite a v s = .ok u) :
    withStored a v s k = k u := by
  rw [withStored, h]

theorem withStored_error {a v : Word} {s : State} {k : State → Result} {f : Fault} (h : memWrite a v s = .error f) :
    withStored a v s k = .fault f := by
  rw [withStored, h]

theorem bytesKeptBut_of_writeWord {a v : Word} {s t : State} (h : t.mem = s.mem.writeWord a v) :
    bytesKeptBut a s t := by
  intro key hlow hhigh
  rw [h, Memory.readCell_writeWord, if_neg hhigh, if_neg hlow]

/-- An instruction that is one data write, perhaps after another SP (`b`), and then completes: a write leaves its state
with another storage or with one more event, and `leave` need hold of those two alone. -/
theorem stores_of_withStored {i : Instr} {a v pc : Word} {s b : State} {leave : State → Prop}
    (hexec : exec i s = withStored a v b fun u => .next (u.retire pc)) (hmem : b.mem = s.mem) (hout : b.out = s.out)
    (hstored : ∀ m, leave ((b.setMem m).retire pc)) (hemitted : ∀ e, leave ((b.emit e).retire pc)) :
    stores i a v s leave := by
  unfold stores
  rw [hexec, ← hmem, ← hout]
  refine ⟨fun ha => ?storage, ?char, ?int, ?string, fun ha hc hi hs => ?none⟩
  case storage =>
    exact ⟨_, withStored_ok (memWrite_storage v b ha), hstored _, Memory.readWord_writeWord_same _ a v,
      bytesKeptBut_of_writeWord (congrArg (Memory.writeWord · a v) hmem), rfl⟩
  case char =>
    rintro rfl
    exact ⟨_, withStored_ok (memWrite_charOut v b), hemitted _, rfl, rfl⟩
  case int =>
    rintro rfl
    exact ⟨_, withStored_ok (memWrite_intOut v b), hemitted _, rfl, rfl⟩
  case string =>
    rintro t rfl h
    obtain ⟨u, hw, ht⟩ := withStored_next h
    cases ht
    obtain ⟨hin, -⟩ | ⟨-, e, rfl⟩ := memWrite_ok hw
    · exact absurd hin (by decide)
    · exact ⟨hemitted e, rfl⟩
  case none => exact withStored_error (memWrite_no_writer v b ha hc hi hs)

/-! ### The statements -/

/-- The last step of LDI, MOV and LD: Rd receives the word, and the next instruction is next. -/
theorem setReg_retire {s u : State} (rd : Reg) (w : Word) (length : Nat) (hregs : u.regs = s.regs)
    (hflags : u.flags = s.flags) (hcycle : u.cycle = s.cycle) :
    let t := (u.setReg rd w).retire (nextPc s length)
    t.reg rd = w ∧ t.flags = s.flags ∧ othersKept rd s t ∧ restKept u t ∧ advanced length s t := by
  refine ⟨u.reg_setReg_same rd w, hflags, fun r hr => ?_, ⟨rfl, rfl, rfl, rfl, rfl, rfl, rfl⟩, rfl, ?_⟩
  · exact (u.reg_setReg_other w hr).trans (congrArg (RegFile.get · r) hregs)
  · exact congrArg (· + 1) hcycle

/-- Settles O22: LDI is the write of Rd alone. -/
theorem ldiLoadsTheImmediate : Obligations.LdiLoadsTheImmediate := by
  intro rd imm s
  obtain ⟨hrd, hflags, hothers, hrest, hadv⟩ := setReg_retire rd imm 2 (s := s) rfl rfl rfl
  exact ⟨_, rfl, hrd, hflags, hothers, hrest, hadv, by rw [encodeWords, packWord_rd]; rfl⟩

/-- Settles O23: MOV is the write of Rd alone. -/
theorem movCopiesTheRegister : Obligations.MovCopiesTheRegister := by
  intro rd rs s
  obtain ⟨hrd, hflags, hothers, hrest, hadv⟩ := setReg_retire rd (s.reg rs) 1 (s := s) rfl rfl rfl
  exact ⟨_, rfl, hrd, hflags, hothers, hrest, hadv, by rw [encodeWords, packWord_rd_rs]; rfl⟩

/-- Settles O24: a data read at the second word, then the write of Rd. -/
theorem ldDirectLoadsTheWord : Obligations.LdDirectLoadsTheWord := fun rd _ _ =>
  ⟨loads_of_withLoaded rfl fun w _ _ => setReg_retire rd w 2 rfl rfl rfl, by rw [encodeWords, packWord_rd]; rfl⟩

/-- Settles O25: a data read at the address in Rs, then the write of Rd. -/
theorem ldIndirectLoadsTheWord : Obligations.LdIndirectLoadsTheWord := fun rd _ _ =>
  ⟨loads_of_withLoaded rfl fun w _ _ => setReg_retire rd w 1 rfl rfl rfl, by rw [encodeWords, packWord_rd_rs]; rfl⟩

/-- ST is a data write of Rs and no more: neither storage nor a device touches the registers or the flags. -/
theorem stores_register {i : Instr} {a v : Word} {s : State} (length : Nat)
    (hexec : exec i s = withStored a v s fun u => .next (u.retire (nextPc s length))) :
    stores i a v s fun t => t.regs = s.regs ∧ t.flags = s.flags ∧ insideKept s t ∧ advanced length s t :=
  stores_of_withStored hexec rfl rfl (fun _ => ⟨rfl, rfl, ⟨rfl, rfl, rfl, rfl, rfl⟩, rfl, rfl⟩)
    fun _ => ⟨rfl, rfl, ⟨rfl, rfl, rfl, rfl, rfl⟩, rfl, rfl⟩

/-- Settles O26: a data write at the second word. -/
theorem stDirectStoresTheRegister : Obligations.StDirectStoresTheRegister := fun _ _ _ =>
  ⟨stores_register 2 rfl, by rw [encodeWords, packWord_rs]; rfl⟩

/-- Settles O27: a data write at the address in Rd. -/
theorem stIndirectStoresTheRegister : Obligations.StIndirectStoresTheRegister := fun _ _ _ =>
  ⟨stores_register 1 rfl, by rw [encodeWords, packWord_rd_rs]; rfl⟩

end Sys2Proof.Machine
end

section
/-! What instructions write of the flags and the devices, over all instructions (spec/10_state.md R28,
spec/60_exceptions.md R211, R212). -/

namespace Sys2Proof.Machine

/-! ### The flags of the table (R28) -/

/-- Settles O17: `flagsLeft` is R28's table, and an instruction leaves those flags whatever flags it finds. -/
theorem flagsWrittenAreThoseOfTheTable : Obligations.FlagsWrittenAreThoseOfTheTable := by
  intro i s t h
  have left : t.flags = flagsLeft i s s.flags t.flags := exec_flags h
  refine ⟨fun hw => ?zn, fun hw => ?c, exec_keeps_v h, fun f hi => ?otherFlags⟩
  case zn =>
    have unmarked : ¬writesZN i = true := ne_true_of_eq_false hw
    exact ⟨(congrArg Flags.z left).trans (if_neg unmarked), (congrArg Flags.n left).trans (if_neg unmarked)⟩
  case c => exact (congrArg Flags.c left).trans (if_neg (ne_true_of_eq_false hw))
  case otherFlags =>
    have blind : branchCondition i f = branchCondition i s.flags :=
      (branchCondition_of_not_isBranch hi f).trans (branchCondition_of_not_isBranch hi s.flags).symm
    exact ⟨_, exec_setFlags_next h blind, fun hw => ⟨if_pos hw, if_pos hw⟩, fun hw => if_pos hw⟩

/-! ### The devices (R211, R212, R131) -/

/-- Only the input device takes from the input stream (R221). -/
theorem memRead_value_inp {a w : Word} {s u : State} (h : memRead a s = .value w u) (ha : a ≠ 0xF820) :
    u.inp = s.inp := by
  obtain ⟨-, -, rfl⟩ | ⟨-, -, rfl⟩ | ⟨hin, -⟩ | ⟨-, -, -, rfl⟩ := memRead_value h
  · rfl
  · rfl
  · exact absurd hin ha
  · rfl

/-- Only the timer draws a free value (R220). -/
theorem memRead_value_draws {a w : Word} {s u : State} (h : memRead a s = .value w u) (ha : a ≠ 0xF810) :
    u.draws = s.draws := by
  obtain ⟨-, -, rfl⟩ | ⟨htimer, -⟩ | ⟨-, b, rest, -, -, rfl⟩ | ⟨-, -, -, rfl⟩ := memRead_value h
  · rfl
  · exact absurd htimer ha
  · rfl
  · rfl

/-- A write to storage emits nothing (R58). -/
theorem memWrite_ok_out {a v : Word} {s u : State} (h : memWrite a v s = .ok u) (ha : InStorage a) : u.out = s.out := by
  obtain ⟨-, rfl⟩ | ⟨hio, -⟩ := memWrite_ok h
  · rfl
  · exact absurd ha hio

/-- Settles O21, by the four things an instruction can be: none of the accesses, a load that got its word, a load that
waits, a store. -/
theorem devicesActOnlyOnAccessesInTheIORegion : Obligations.DevicesActOnlyOnAccessesInTheIORegion := by
  intro i s t h
  obtain ⟨-, -, -, hout, hinp, heof, hir, -, -, hdraws⟩ |
    ⟨a, w, u, hload, -, hread, -, -, hout, hinp, heof, hir, -, -, hdraws⟩ |
    ⟨a, -, -, -, rfl⟩ |
    ⟨a, b, u, hstore, -, hb, hwrite, -, -, hout, hinp, heof, hir, -, -, hdraws⟩ := exec_next h
  case inl => exact ⟨fun _ => hout, fun _ => hinp, fun _ => hdraws, hir, heof⟩
  case inr.inl =>
    have elsewhere : ∀ {d : Word}, loadSource i s ≠ some d → a ≠ d :=
      fun hd had => hd (hload.trans (congrArg some had))
    exact ⟨fun _ => hout, fun hd => hinp.trans (memRead_value_inp hread (elsewhere hd)),
      fun hd _ => hdraws.trans (memRead_value_draws hread (elsewhere hd)), hir, heof⟩
  case inr.inr.inl => exact ⟨fun _ => rfl, fun _ => rfl, fun _ _ => rfl, rfl, rfl⟩
  case inr.inr.inr =>
    have hbout : b.out = s.out := by obtain rfl | rfl := hb <;> rfl
    exact ⟨fun hall => hout.trans ((memWrite_ok_out hwrite (hall a hstore)).trans hbout), fun _ => hinp,
      fun _ _ => hdraws, hir, heof⟩

end Sys2Proof.Machine
end

section
/-! ADD, SUB, MUL, DIV, INC, DEC, ADDI and SUBI (spec/41_arithmetic.md): what `finishZN` and `finishZNC` answer, each
result and its C as arithmetic, then the statements. -/

namespace Sys2Proof.Machine

/-! ### A result in Rd, with Z and N from it (R25, R121) -/

theorem isZero_iff (r : Word) : isZero r = true ↔ r.toNat = 0 := by
  rw [isZero, beq_iff_eq, BitVec.toNat_eq]; rfl

theorem isNegative_iff (r : Word) : isNegative r = true ↔ r.toNat ≥ 32768 := by
  rw [isNegative, BitVec.msb_eq_decide, decide_eq_true_iff]

theorem flagsOfResult_of_eq {r : Word} {t : State} (hz : t.flags.z = isZero r) (hn : t.flags.n = isNegative r) :
    flagsOfResult r t := by
  rw [flagsOfResult, hz, hn]
  exact ⟨isZero_iff r, isNegative_iff r⟩

/-- What `finishZN` and `finishZNC` leave but for C: `f` is the flags they write. -/
theorem computed_of_flags (rd : Reg) (r : Word) (length : Nat) (s : State) {f : Flags} (hz : f.z = isZero r)
    (hn : f.n = isNegative r) (hv : f.v = s.flags.v) :
    let t := ((s.setReg rd r).setFlags f).retire (nextPc s length)
    t.reg rd = r ∧ computed rd length s t := by
  have hr : (s.setReg rd r).reg rd = r := s.reg_setReg_same rd r
  refine ⟨hr, ?_, hv, fun q hq => s.reg_setReg_other r hq, ⟨rfl, rfl, rfl, rfl, rfl, rfl, rfl⟩, rfl, rfl⟩
  exact flagsOfResult_of_eq (hz.trans (congrArg isZero hr.symm)) (hn.trans (congrArg isNegative hr.symm))

theorem finishZN_next (rd : Reg) (r : Word) (length : Nat) (s : State) :
    ∃ t, finishZN rd r length s = .next t ∧ t.reg rd = r ∧ t.flags.c = s.flags.c ∧ computed rd length s t := by
  obtain ⟨hr, hcomp⟩ := computed_of_flags rd r length s (f := setZN s.flags r) rfl rfl rfl
  exact ⟨_, rfl, hr, rfl, hcomp⟩

theorem finishZNC_next (rd : Reg) (r : Word) (c : Bool) (length : Nat) (s : State) :
    ∃ t, finishZNC rd r c length s = .next t ∧ t.reg rd = r ∧ t.flags.c = c ∧ computed rd length s t := by
  obtain ⟨hr, hcomp⟩ := computed_of_flags rd r length s (f := setZNC s.flags r c) rfl rfl rfl
  exact ⟨_, rfl, hr, rfl, hcomp⟩

/-! ### The results and C as arithmetic (R120, R122 to R127) -/

theorem toNat_sumOf (a b : Word) : (sumOf a b).toNat = (a.toNat + b.toNat) % 65536 := BitVec.toNat_ofNat _ 16

theorem toNat_productOf (a b : Word) : (productOf a b).toNat = a.toNat * b.toNat % 65536 := BitVec.toNat_ofNat _ 16

theorem toNat_differenceOf (a b : Word) :
    ((differenceOf a b).toNat : Int) = ((a.toNat : Int) - (b.toNat : Int)) % 65536 := by
  rw [differenceOf, BitVec.toNat_ofInt]
  exact Int.toNat_of_nonneg (Int.emod_nonneg _ (by decide))

/-- The quotient always fits: no reduction is seen (R127). -/
theorem toNat_quotientOf (a b : Word) : (quotientOf a b).toNat = a.toNat / b.toNat := by
  rw [quotientOf, BitVec.toNat_ofNat]
  exact Nat.mod_eq_of_lt ((Nat.div_le_self _ _).trans_lt a.isLt)

theorem toInt_of_le {a : Word} (h : a.toNat ≤ 32767) : a.toInt = a.toNat :=
  BitVec.toInt_eq_toNat_of_lt (by omega)

/-- R133: where bit 15 of both operands is 0, the signed quotient is the same. -/
theorem toInt_quotientOf {a b : Word} (ha : a.toNat ≤ 32767) (hb : b.toNat ≤ 32767) :
    (quotientOf a b).toInt = a.toInt.tdiv b.toInt := by
  have hq : (quotientOf a b).toNat ≤ 32767 := (toNat_quotientOf a b).trans_le ((Nat.div_le_self _ _).trans ha)
  rw [toInt_of_le hq, toInt_of_le ha, toInt_of_le hb, toNat_quotientOf, Int.ofNat_tdiv]

/-! ### The meanings the statements share -/

/-- ADD and ADDI in one: `b` is Rs or the second word. -/
theorem finishZNC_sum (rd : Reg) (b : Word) (length : Nat) (s : State) :
    ∃ t, finishZNC rd (sumOf (s.reg rd) b) (carryOfAdd (s.reg rd) b) length s = .next t ∧
      (t.reg rd).toNat = ((s.reg rd).toNat + b.toNat) % 65536 ∧
      (t.flags.c = true ↔ (s.reg rd).toNat + b.toNat > 65535) ∧ computed rd length s t := by
  obtain ⟨t, hnext, hr, hc, hcomp⟩ := finishZNC_next rd (sumOf (s.reg rd) b) (carryOfAdd (s.reg rd) b) length s
  refine ⟨t, hnext, ?_, ?_, hcomp⟩
  · rw [hr, toNat_sumOf]
  · rw [hc, carryOfAdd, decide_eq_true_iff]

/-- SUB and SUBI in one: `b` is Rs or the second word. -/
theorem finishZNC_difference (rd : Reg) (b : Word) (length : Nat) (s : State) :
    ∃ t, finishZNC rd (differenceOf (s.reg rd) b) (borrowOfSub (s.reg rd) b) length s = .next t ∧
      ((t.reg rd).toNat : Int) = (((s.reg rd).toNat : Int) - (b.toNat : Int)) % 65536 ∧
      (t.flags.c = true ↔ (s.reg rd).toNat < b.toNat) ∧ computed rd length s t := by
  obtain ⟨t, hnext, hr, hc, hcomp⟩ :=
    finishZNC_next rd (differenceOf (s.reg rd) b) (borrowOfSub (s.reg rd) b) length s
  refine ⟨t, hnext, ?_, ?_, hcomp⟩
  · rw [hr, toNat_differenceOf]
  · rw [hc, borrowOfSub, decide_eq_true_iff]

theorem exec_div_nonzero {rd rs : Reg} {s : State} (h : s.reg rs ≠ 0) :
    exec (.div rd rs) s = finishZN rd (quotientOf (s.reg rd) (s.reg rs)) 1 s := if_neg h

theorem exec_div_zero {rd rs : Reg} {s : State} (h : s.reg rs = 0) : exec (.div rd rs) s = divideByZero s := if_pos h

/-! ### The statements -/

/-- Settles O30: `finishZNC_sum` with Rs. -/
theorem addAddsTheRegisters : Obligations.AddAddsTheRegisters := by
  intro rd rs s
  obtain ⟨t, hnext, hsum, hc, hcomp⟩ := finishZNC_sum rd (s.reg rs) 1 s
  exact ⟨t, hnext, hsum, hc, hcomp, by rw [encodeWords, packWord_rd_rs]; rfl⟩

/-- Settles O31: `finishZNC_sum` with the second word. -/
theorem addiAddsTheImmediate : Obligations.AddiAddsTheImmediate := by
  intro rd imm s
  obtain ⟨t, hnext, hsum, hc, hcomp⟩ := finishZNC_sum rd imm 2 s
  exact ⟨t, hnext, hsum, hc, hcomp, by rw [encodeWords, packWord_rd]; rfl⟩

/-- Settles O32: `finishZNC_difference` with Rs and with the second word. -/
theorem subAndSubiSubtract : Obligations.SubAndSubiSubtract := by
  refine ⟨fun rd rs s => ?sub, fun rd imm s => ?subi⟩
  case sub =>
    obtain ⟨t, hnext, hdiff, hc, hcomp⟩ := finishZNC_difference rd (s.reg rs) 1 s
    exact ⟨t, hnext, hdiff, hc, hcomp, by rw [encodeWords, packWord_rd_rs]; rfl⟩
  case subi =>
    obtain ⟨t, hnext, hdiff, hc, hcomp⟩ := finishZNC_difference rd imm 2 s
    exact ⟨t, hnext, hdiff, hc, hcomp, by rw [encodeWords, packWord_rd]; rfl⟩

/-- Settles O33: `finishZNC` with the product and its own C. -/
theorem mulMultiplies : Obligations.MulMultiplies := by
  intro rd rs s
  obtain ⟨t, hnext, hr, hc, hcomp⟩ :=
    finishZNC_next rd (productOf (s.reg rd) (s.reg rs)) (carryOfMul (s.reg rd) (s.reg rs)) 1 s
  refine ⟨t, hnext, ?_, ?_, hcomp, by rw [encodeWords, packWord_rd_rs]; rfl⟩
  · rw [hr, toNat_productOf]
  · rw [hc, carryOfMul, decide_eq_true_iff]

/-- Settles O34: by a divisor that is not zero DIV is `finishZN` with the quotient. -/
theorem divDivides : Obligations.DivDivides := by
  intro rd rs s hrs
  obtain ⟨t, hnext, hr, hc, hcomp⟩ := finishZN_next rd (quotientOf (s.reg rd) (s.reg rs)) 1 s
  refine ⟨t, (exec_div_nonzero hrs).trans hnext, ?_, hc, hcomp, fun hd hs => ?_,
    by rw [encodeWords, packWord_rd_rs]; rfl⟩
  · rw [hr, toNat_quotientOf]
  · rw [hr, toInt_quotientOf hd hs]

/-- Settles O35: by zero DIV is `divideByZero`, which writes flags, draws and completes. -/
theorem divByZeroKeepsTheRegister : Obligations.DivByZeroKeepsTheRegister := fun _ _ _ hrs =>
  ⟨_, exec_div_zero hrs, rfl, rfl, rfl, rfl, rfl, rfl, rfl, rfl, rfl, rfl, rfl⟩

/-- Settles O36: `finishZN` with one added and with one subtracted. -/
theorem incAndDecLeaveCarry : Obligations.IncAndDecLeaveCarry := by
  refine ⟨fun rd s => ?inc, fun rd s => ?dec⟩
  case inc =>
    obtain ⟨t, hnext, hr, hc, hcomp⟩ := finishZN_next rd (sumOf (s.reg rd) 1) 1 s
    exact ⟨t, hnext, (congrArg BitVec.toNat hr).trans (toNat_sumOf _ 1), hc, hcomp,
      by rw [encodeWords, packWord_rd]; rfl⟩
  case dec =>
    obtain ⟨t, hnext, hr, hc, hcomp⟩ := finishZN_next rd (differenceOf (s.reg rd) 1) 1 s
    exact ⟨t, hnext, (congrArg (fun w : Word => (w.toNat : Int)) hr).trans (toNat_differenceOf _ 1), hc, hcomp,
      by rw [encodeWords, packWord_rd]; rfl⟩

end Sys2Proof.Machine
end

section
/-! AND, OR, XOR and NOT (spec/42_logical.md): `finishZN` with the result told bit by bit, then the statement. -/

namespace Sys2Proof.Machine

/-- `finishZN` with a result given by its bits. -/
theorem finishZN_bits (rd : Reg) {r : Word} {bit : Nat → Bool} (hbit : ∀ k, k < 16 → r.getLsbD k = bit k)
    (length : Nat) (s : State) :
    ∃ t, finishZN rd r length s = .next t ∧ (∀ k, k < 16 → (t.reg rd).getLsbD k = bit k) ∧
      t.flags.c = s.flags.c ∧ computed rd length s t := by
  obtain ⟨t, hnext, rfl, hc, hcomp⟩ := finishZN_next rd r length s
  exact ⟨t, hnext, hbit, hc, hcomp⟩

/-- Settles O37: AND, OR and XOR are `finishZN_bits` with the two bits combined; NOT is `finishZN` with the complement,
told by its bits and by its value. -/
theorem logicalInstructionsWorkBitByBit : Obligations.LogicalInstructionsWorkBitByBit := by
  refine ⟨fun rd rs s => ?and, fun rd rs s => ?or, fun rd rs s => ?xor, fun rd s => ?not⟩
  case and =>
    obtain ⟨t, hnext, hbits, hc, hcomp⟩ := finishZN_bits rd (fun _ _ => BitVec.getLsbD_and) 1 s
    exact ⟨t, hnext, hbits, hc, hcomp, by rw [encodeWords, packWord_rd_rs]; rfl⟩
  case or =>
    obtain ⟨t, hnext, hbits, hc, hcomp⟩ := finishZN_bits rd (fun _ _ => BitVec.getLsbD_or) 1 s
    exact ⟨t, hnext, hbits, hc, hcomp, by rw [encodeWords, packWord_rd_rs]; rfl⟩
  case xor =>
    obtain ⟨t, hnext, hbits, hc, hcomp⟩ := finishZN_bits rd (fun _ _ => BitVec.getLsbD_xor) 1 s
    exact ⟨t, hnext, hbits, hc, hcomp, by rw [encodeWords, packWord_rd_rs]; rfl⟩
  case not =>
    obtain ⟨t, hnext, hr, hc, hcomp⟩ := finishZN_next rd (~~~ s.reg rd) 1 s
    refine ⟨t, hnext, fun k hk => ?_, ?_, hc, hcomp, by rw [encodeWords, packWord_rd]; rfl⟩
    · rw [hr, BitVec.getLsbD_not, decide_eq_true hk, Bool.true_and]
    · rw [hr, BitVec.toNat_not]

end Sys2Proof.Machine
end

section
/-! SHL, SHR and SAR (spec/43_shift.md): each result is the library's shift by the low 4 bits of Rs, and told so by
value and by bit; then the statements. -/

namespace Sys2Proof.Machine

/-! ### The results as shifts of the word (R150 to R152) -/

theorem toNat_shiftLeftOf (a b : Word) : (shiftLeftOf a b).toNat = a.toNat * 2 ^ (b.toNat % 16) % 65536 :=
  BitVec.toNat_ofNat _ 16

theorem shiftLeftOf_eq (a b : Word) : shiftLeftOf a b = a <<< (b.toNat % 16) :=
  BitVec.eq_of_toNat_eq <| by rw [toNat_shiftLeftOf, BitVec.toNat_shiftLeft, Nat.shiftLeft_eq]

theorem getLsbD_shiftLeftOf (a b : Word) {k : Nat} (hk : k < 16) :
    (shiftLeftOf a b).getLsbD k = (decide (b.toNat % 16 ≤ k) && a.getLsbD (k - b.toNat % 16)) := by
  rw [shiftLeftOf_eq, BitVec.getLsbD_shiftLeft, decide_eq_true hk, Bool.true_and, ← decide_not,
    decide_eq_decide.2 Nat.not_lt]

theorem shiftRightOf_eq (a b : Word) : shiftRightOf a b = a >>> (b.toNat % 16) := by
  rw [shiftRightOf, shiftAmount, ← Nat.shiftRight_eq_div_pow, ← BitVec.toNat_ushiftRight, BitVec.ofNat_toNat,
    BitVec.setWidth_eq]

theorem toNat_shiftRightOf (a b : Word) : (shiftRightOf a b).toNat = a.toNat / 2 ^ (b.toNat % 16) := by
  rw [shiftRightOf_eq, BitVec.toNat_ushiftRight, Nat.shiftRight_eq_div_pow]

theorem getLsbD_shiftRightOf (a b : Word) (k : Nat) :
    (shiftRightOf a b).getLsbD k = a.getLsbD (k + b.toNat % 16) := by
  rw [shiftRightOf_eq, BitVec.getLsbD_ushiftRight, Nat.add_comm]

theorem shiftArithOf_eq (a b : Word) : shiftArithOf a b = a.sshiftRight (b.toNat % 16) := by
  rw [shiftArithOf, shiftAmount, ← Int.shiftRight_eq_div_pow, BitVec.sshiftRight]

/-- The quotient always fits: no reduction is seen (R152). -/
theorem toInt_shiftArithOf (a b : Word) :
    (shiftArithOf a b).toInt = a.toInt / ((2 ^ (b.toNat % 16) : Nat) : Int) := by
  rw [shiftArithOf_eq, BitVec.toInt_sshiftRight, Int.shiftRight_eq_div_pow]

theorem getLsbD_shiftArithOf (a b : Word) {k : Nat} (hk : k < 16) :
    (shiftArithOf a b).getLsbD k =
      if k + b.toNat % 16 ≤ 15 then a.getLsbD (k + b.toNat % 16) else a.getLsbD 15 := by
  rw [shiftArithOf_eq, BitVec.getLsbD_sshiftRight, decide_eq_false (Nat.not_le.2 hk), Bool.not_false, Bool.true_and,
    BitVec.msb_eq_getLsbD_last, Nat.add_comm]
  exact if_congr Nat.lt_succ_iff rfl rfl

/-- N after SAR is the old bit 15 of Rd, whatever the amount (R152). -/
theorem isNegative_shiftArithOf (a b : Word) : isNegative (shiftArithOf a b) = a.getLsbD 15 := by
  rw [isNegative, shiftArithOf_eq, BitVec.msb_sshiftRight, BitVec.msb_eq_getLsbD_last]

/-! ### The statements -/

/-- Settles O38: `finishZN` with the word shifted left and with the word shifted right. -/
theorem shlAndShrShiftInZeros : Obligations.ShlAndShrShiftInZeros := by
  refine ⟨fun rd rs s => ?shl, fun rd rs s => ?shr⟩
  case shl =>
    obtain ⟨t, hnext, hr, hc, hcomp⟩ := finishZN_next rd (shiftLeftOf (s.reg rd) (s.reg rs)) 1 s
    refine ⟨t, hnext, ?_, fun k hk => ?_, hc, hcomp, by rw [encodeWords, packWord_rd_rs]; rfl⟩
    · rw [hr, toNat_shiftLeftOf]
    · rw [hr, getLsbD_shiftLeftOf _ _ hk]
  case shr =>
    obtain ⟨t, hnext, hr, hc, hcomp⟩ := finishZN_next rd (shiftRightOf (s.reg rd) (s.reg rs)) 1 s
    refine ⟨t, hnext, ?_, fun k _ => ?_, hc, hcomp, by rw [encodeWords, packWord_rd_rs]; rfl⟩
    · rw [hr, toNat_shiftRightOf]
    · rw [hr, getLsbD_shiftRightOf]

/-- Settles O39: `finishZN` with the word shifted right under its sign. -/
theorem sarShiftsInTheSign : Obligations.SarShiftsInTheSign := by
  intro rd rs s
  obtain ⟨t, hnext, hr, hc, hcomp⟩ := finishZN_next rd (shiftArithOf (s.reg rd) (s.reg rs)) 1 s
  have ⟨⟨_, hn⟩, _⟩ := hcomp
  refine ⟨t, hnext, ?_, fun k hk => ?_, ?_, hc, hcomp, by rw [encodeWords, packWord_rd_rs]; rfl⟩
  · rw [hr, toInt_shiftArithOf]
  · rw [hr, getLsbD_shiftArithOf _ _ hk]
  · rw [hn, ← isNegative_iff, hr, isNegative_shiftArithOf]

end Sys2Proof.Machine
end

section
/-! The conditional branches and JMP (spec/44_branch_jump.md): the conditions as the spec words them, what `branchIf`
leaves and when it goes to its address, what N, Z and C say after CMP; then the statements. -/

namespace Sys2Proof.Machine

/-! ### The conditions (R160 to R167) -/

theorem condEq_iff (f : Flags) : condEq f = true ↔ f.z = true := Iff.rfl

theorem condNe_iff (f : Flags) : condNe f = true ↔ f.z = false := by rw [condNe, Bool.not_eq_true']

theorem condGt_iff (f : Flags) : condGt f = true ↔ f.n = false ∧ f.z = false := by
  rw [condGt, Bool.and_eq_true, Bool.not_eq_true', Bool.not_eq_true']

theorem condLt_iff (f : Flags) : condLt f = true ↔ f.n = true := Iff.rfl

theorem condGe_iff (f : Flags) : condGe f = true ↔ f.n = false := by rw [condGe, Bool.not_eq_true']

theorem condLe_iff (f : Flags) : condLe f = true ↔ f.n = true ∨ f.z = true := Bool.or_eq_true_iff

theorem condCs_iff (f : Flags) : condCs f = true ↔ f.c = true := Iff.rfl

theorem condCc_iff (f : Flags) : condCc f = true ↔ f.c = false := by rw [condCc, Bool.not_eq_true']

/-! ### The one shape of the branches -/

/-- A retired instruction has moved `pc` and counted a cycle, and no more. -/
theorem retire_keeps (s : State) (a : Word) :
    let t := s.retire a
    t.regs = s.regs ∧ t.flags = s.flags ∧ restKept s t ∧ t.cycle = s.cycle + 1 :=
  ⟨rfl, rfl, ⟨rfl, rfl, rfl, rfl, rfl, rfl, rfl⟩, rfl⟩

theorem branchIf_next (taken : Bool) (addr : Word) (s : State) :
    ∃ t, branchIf taken addr s = .next t ∧ (taken = true → t.pc = addr) ∧ (¬taken = true → t.pc = s.pc + 2) ∧
      t.regs = s.regs ∧ t.flags = s.flags ∧ restKept s t ∧ t.cycle = s.cycle + 1 :=
  ⟨_, rfl, fun h => if_pos h, fun h => if_neg h, retire_keeps s _⟩

/-- Where the address is not the fall-through one, `pc` tells whether the branch was taken. -/
theorem goesTo_iff_taken {i : Instr} {taken : Bool} {addr : Word} {s : State} (hexec : exec i s = branchIf taken addr s)
    (haddr : addr ≠ s.pc + 2) : goesTo i s addr ↔ taken = true := by
  obtain ⟨t, hnext, htaken, hnot, -⟩ := branchIf_next taken addr s
  refine ⟨?_, fun h => ⟨t, hexec.trans hnext, htaken h⟩⟩
  rintro ⟨u, hu, hpc⟩
  obtain rfl : t = u := Host.Outcome.next.inj ((hexec.trans hnext).symm.trans hu)
  by_contra h
  exact haddr (hpc.symm.trans (hnot h))

/-- The four branches that test N, in terms of what N and Z mean. -/
theorem goesTo_signed_branches {s : State} {addr : Word} {less equal : Prop} (haddr : addr ≠ s.pc + 2)
    (hn : s.flags.n = true ↔ less) (hz : s.flags.z = true ↔ equal) :
    (goesTo (.blt addr) s addr ↔ less) ∧ (goesTo (.bge addr) s addr ↔ ¬less) ∧
    (goesTo (.bgt addr) s addr ↔ ¬less ∧ ¬equal) ∧ (goesTo (.ble addr) s addr ↔ less ∨ equal) := by
  have hn' : s.flags.n = false ↔ ¬less := by rw [← Bool.not_eq_true, hn]
  have hz' : s.flags.z = false ↔ ¬equal := by rw [← Bool.not_eq_true, hz]
  exact ⟨(goesTo_iff_taken rfl haddr).trans ((condLt_iff _).trans hn),
    (goesTo_iff_taken rfl haddr).trans ((condGe_iff _).trans hn'),
    (goesTo_iff_taken rfl haddr).trans ((condGt_iff _).trans (and_congr hn' hz')),
    (goesTo_iff_taken rfl haddr).trans ((condLe_iff _).trans (or_congr hn hz))⟩

/-! ### The flags after CMP (R169, R185) -/

theorem isZero_differenceOf (a b : Word) : isZero (differenceOf a b) = true ↔ a = b := by
  have hdiff := toNat_differenceOf a b
  rw [isZero_iff, BitVec.toNat_eq]
  omega

theorem borrowOfSub_iff (a b : Word) : borrowOfSub a b = true ↔ a.toNat < b.toNat := decide_eq_true_iff

/-- N after CMP is the signed comparison where the signed difference fits in 16 bits, and its opposite elsewhere. -/
theorem isNegative_differenceOf (a b : Word) : isNegative (differenceOf a b) = true ↔
    ((-32768 ≤ a.toInt - b.toInt ∧ a.toInt - b.toInt ≤ 32767) ↔ a.toInt < b.toInt) := by
  have hdiff := toNat_differenceOf a b
  have ha := BitVec.toInt_eq_toNat_cond a
  have hb := BitVec.toInt_eq_toNat_cond b
  rw [isNegative_iff]
  omega

theorem exec_cmp_next (ra rb : Reg) (s : State) :
    ∃ t, exec (.cmp ra rb) s = .next t ∧ t.flags.z = isZero (differenceOf (s.reg ra) (s.reg rb)) ∧
      t.flags.n = isNegative (differenceOf (s.reg ra) (s.reg rb)) ∧
      t.flags.c = borrowOfSub (s.reg ra) (s.reg rb) :=
  ⟨_, rfl, rfl, rfl, rfl⟩

/-! ### The statements -/

/-- Settles O41: each row is `branchIf` with its own condition. -/
theorem branchesTestTheirConditions : Obligations.BranchesTestTheirConditions := by
  intro addr s i first condition hrow
  obtain ⟨hexec, hcond, hwords⟩ : exec i s = branchIf (branchCondition i s.flags) addr s ∧
      (condition ↔ branchCondition i s.flags = true) ∧ encodeWords i = [first, addr] := by
    obtain ⟨rfl, rfl, hc⟩ | ⟨rfl, rfl, hc⟩ | ⟨rfl, rfl, hc⟩ | ⟨rfl, rfl, hc⟩ | ⟨rfl, rfl, hc⟩ | ⟨rfl, rfl, hc⟩ |
      ⟨rfl, rfl, hc⟩ | ⟨rfl, rfl, hc⟩ := hrow
    · exact ⟨rfl, hc.trans (condEq_iff _).symm, rfl⟩
    · exact ⟨rfl, hc.trans (condNe_iff _).symm, rfl⟩
    · exact ⟨rfl, hc.trans (condGt_iff _).symm, rfl⟩
    · exact ⟨rfl, hc.trans (condLt_iff _).symm, rfl⟩
    · exact ⟨rfl, hc.trans (condGe_iff _).symm, rfl⟩
    · exact ⟨rfl, hc.trans (condLe_iff _).symm, rfl⟩
    · exact ⟨rfl, hc.trans (condCs_iff _).symm, rfl⟩
    · exact ⟨rfl, hc.trans (condCc_iff _).symm, rfl⟩
  obtain ⟨t, hnext, htaken, hnot, hregs, hflags, hrest, hcycle⟩ := branchIf_next (branchCondition i s.flags) addr s
  rw [← hcond] at htaken hnot
  exact ⟨t, hexec.trans hnext, htaken, hnot, hregs, hflags, hrest, hcycle, hwords⟩

/-- Settles O42: JMP retires at its second word. -/
theorem jmpGoesToItsAddress : Obligations.JmpGoesToItsAddress := by
  intro addr s
  obtain ⟨hregs, hflags, hrest, hcycle⟩ := retire_keeps s addr
  exact ⟨_, rfl, rfl, hregs, hflags, hrest, hcycle, rfl⟩

/-- Settles O43: Z says equal, C says below, and N says less where the signed difference fits. Where it does not, N says
the opposite, and the operands are not equal, so Z changes no answer of BGT and BLE. -/
theorem branchAfterCompareMeansTheComparison : Obligations.BranchAfterCompareMeansTheComparison := by
  intro ra rb s
  obtain ⟨t, hnext, hz, hn, hc⟩ := exec_cmp_next ra rb s
  generalize s.reg ra = a at *
  generalize s.reg rb = b at *
  have hequal : t.flags.z = true ↔ a = b := by rw [hz, isZero_differenceOf]
  have hbelow : t.flags.c = true ↔ a.toNat < b.toNat := by rw [hc, borrowOfSub_iff]
  have hequalInt : t.flags.z = true ↔ a.toInt = b.toInt := hequal.trans BitVec.toInt_inj.symm
  refine ⟨t, hnext, fun addr haddr => ⟨?eq, ?ne, ?cs, ?cc, fun hfits => ?fits, fun hover => ?overflow⟩⟩
  case eq => rw [goesTo_iff_taken rfl haddr, condEq_iff, hequal]
  case ne => rw [goesTo_iff_taken rfl haddr, condNe_iff, ← Bool.not_eq_true, hequal]
  case cs => rw [goesTo_iff_taken rfl haddr, condCs_iff, hbelow]
  case cc => rw [goesTo_iff_taken rfl haddr, condCc_iff, ← Bool.not_eq_true, hbelow, Nat.not_lt]
  case fits =>
    have hless : t.flags.n = true ↔ a.toInt < b.toInt := by rw [hn, isNegative_differenceOf, iff_true_left hfits]
    obtain ⟨hlt, hge, hgt, hle⟩ := goesTo_signed_branches haddr hless hequalInt
    refine ⟨hlt, hge.trans ?_, hgt.trans ?_, hle.trans ?_⟩ <;> omega
  case overflow =>
    have hless : t.flags.n = true ↔ ¬a.toInt < b.toInt := by rw [hn, isNegative_differenceOf, iff_false_left hover]
    obtain ⟨hlt, hge, hgt, hle⟩ := goesTo_signed_branches haddr hless hequalInt
    refine ⟨hlt, hge.trans ?_, hgt.trans ?_, hle.trans ?_⟩ <;> omega

end Sys2Proof.Machine
end

section
/-! PUSH, POP, CALL and RET (spec/45_stack_subroutine.md): a push is one data write below SP, a pop one data read at SP;
then the statements, the round trips from the other four. -/

namespace Sys2Proof.Machine

/-! ### A push and a pop (R175 to R178) -/

/-- PUSH and CALL in one: SP goes down by one whatever the write does, and no other register is touched. -/
theorem stores_belowSp {i : Instr} {v pc : Word} {s : State}
    (hexec : exec i s = withStored (pushAddress s) v s.decrementSp fun u => .next (u.retire pc)) :
    stores i (pushAddress s) v s fun t => t.reg .r7 = s.reg .r7 - 1 ∧ othersKept .r7 s t ∧ t.flags = s.flags ∧
      insideKept s t ∧ t.pc = pc ∧ t.cycle = s.cycle + 1 := by
  have others : othersKept .r7 s s.decrementSp := fun _ => s.decrementSp_reg_other
  refine stores_of_withStored hexec rfl rfl (fun m => ?stored) (fun e => ?emitted)
  case stored => exact ⟨rfl, others, rfl, ⟨rfl, rfl, rfl, rfl, rfl⟩, rfl, rfl⟩
  case emitted => exact ⟨rfl, others, rfl, ⟨rfl, rfl, rfl, rfl, rfl⟩, rfl, rfl⟩

/-- What PUSH stores: Rs, read after SP was decremented (decision D29). -/
theorem decrementSp_reg (s : State) (r : Reg) :
    s.decrementSp.reg r = if r = .r7 then s.reg .r7 - 1 else s.reg r :=
  s.reg_setReg .r7 r (pushAddress s)

/-- The registers POP leaves: Rd is written before SP is incremented (decision D29). -/
theorem setReg_incrementSp_reg (u : State) (rd : Reg) (w : Word) :
    let t := (u.setReg rd w).incrementSp
    (rd = .r7 → t.reg .r7 = w + 1) ∧ (rd ≠ .r7 → t.reg rd = w ∧ t.reg .r7 = u.reg .r7 + 1) ∧
    (∀ r, r ≠ rd → r ≠ .r7 → t.reg r = u.reg r) := by
  refine ⟨?sp, fun hrd => ⟨?loaded, ?incremented⟩, fun r hr hsp => ?other⟩
  case sp =>
    rintro rfl
    rw [State.incrementSp_reg_sp, State.reg_setReg_same]
  case loaded => rw [State.incrementSp_reg_other _ hrd, State.reg_setReg_same]
  case incremented => rw [State.incrementSp_reg_sp, State.reg_setReg_other u w hrd.symm]
  case other => rw [State.incrementSp_reg_other _ hsp, State.reg_setReg_other u w hr]

/-! ### The statements -/

/-- Settles O44: a push of Rs, with the next instruction next. -/
theorem pushStoresBelowTheStackPointer : Obligations.PushStoresBelowTheStackPointer := by
  intro rs s
  rw [← decrementSp_reg]
  exact ⟨stores_belowSp rfl, by rw [encodeWords, packWord_rs]; rfl⟩

/-- Settles O45: a data read at SP, then the writes of Rd and of SP. -/
theorem popLoadsAtTheStackPointer : Obligations.PopLoadsAtTheStackPointer := by
  refine fun rd s => ⟨loads_of_withLoaded rfl fun w bs k => ?_, by rw [encodeWords, packWord_rd]; rfl⟩
  obtain ⟨hsp, hrd, hothers⟩ := setReg_incrementSp_reg ((s.setInput bs).drawn k) rd w
  exact ⟨hsp, hrd, hothers, rfl, ⟨rfl, rfl, rfl, rfl, rfl, rfl, rfl⟩, rfl, rfl⟩

/-- Settles O46: a push of the address after the two words, with the second word next. -/
theorem callPushesTheReturnAddress : Obligations.CallPushesTheReturnAddress := fun _ _ => ⟨stores_belowSp rfl, rfl⟩

/-- Settles O47: a data read at SP, then the increment of SP, with the word read next. -/
theorem retPopsTheProgramCounter : Obligations.RetPopsTheProgramCounter := fun s =>
  ⟨loads_of_withLoaded rfl fun _ bs k => ⟨rfl, rfl, fun _ => ((s.setInput bs).drawn k).incrementSp_reg_other, rfl,
    ⟨rfl, rfl, rfl, rfl, rfl, rfl, rfl⟩, rfl⟩, rfl⟩

/-! ### The round trips -/

/-- The address a pop reads after a push is the one the push wrote. -/
theorem popAddress_after_push {s t : State} (hpush : t.reg .r7 = s.reg .r7 - 1) : popAddress t = pushAddress s := hpush

/-- A push and a pop leave SP as it was, and with it every register that the pop does not load. -/
theorem reg_after_push_pop {s t u : State} {r : Reg} (hpush : t.reg .r7 = s.reg .r7 - 1) (hkept : othersKept .r7 s t)
    (hpop : u.reg .r7 = t.reg .r7 + 1) (hother : r ≠ .r7 → u.reg r = t.reg r) : u.reg r = s.reg r := by
  by_cases hr : r = .r7
  · rw [hr, hpop, hpush, BitVec.sub_add_cancel]
  · rw [hother hr, hkept r hr]

/-- Settles O48: the pop reads storage where the push wrote it, and undoes what the push did to SP. -/
theorem returnAndPopUndoCallAndPush : Obligations.ReturnAndPopUndoCallAndPush := by
  refine ⟨fun addr s hin => ?callRet, fun rs rd s hin hrs hrd => ?pushPop⟩
  case callRet =>
    obtain ⟨⟨hcall, -⟩, -⟩ := callPushesTheReturnAddress addr s
    obtain ⟨t, ht, ⟨hpush, hkept, hflags, -, hpc, -⟩, hword, -⟩ := hcall hin
    obtain ⟨⟨hret, -⟩, -⟩ := retPopsTheProgramCounter t
    rw [popAddress_after_push hpush] at hret
    obtain ⟨u, hu, hreturn, hpop, hothers, hflags', -⟩ := hret _ hin hword
    exact ⟨t, u, ht, hu, hpc, hreturn,
      RegFile.ext_get fun r => reg_after_push_pop hpush hkept hpop (hothers r), hflags'.trans hflags⟩
  case pushPop =>
    obtain ⟨⟨hstore, -⟩, -⟩ := pushStoresBelowTheStackPointer rs s
    obtain ⟨t, ht, ⟨hpush, hkept, hflags, -⟩, hword, -⟩ := hstore hin
    obtain ⟨⟨hload, -⟩, -⟩ := popLoadsAtTheStackPointer rd t
    rw [popAddress_after_push hpush] at hload
    rw [if_neg hrs] at hword
    obtain ⟨u, hu, -, hloaded, hothers, hflags', -⟩ := hload _ hin hword
    obtain ⟨hword', hpop⟩ := hloaded hrd
    have back : ∀ r, r ≠ rd → u.reg r = s.reg r := fun r hr => reg_after_push_pop hpush hkept hpop (hothers r hr)
    exact ⟨t, u, ht, hu, hword', back .r7 hrd.symm, back, hflags'.trans hflags⟩

end Sys2Proof.Machine
end

section
/-! CMP (spec/46_compare.md): the flags of `finishZNC` without its register write, and N as the exact difference's; then
the statement. -/

namespace Sys2Proof.Machine

/-- CMP writes the flags and nothing else but `pc` and `cycle` (R185). -/
theorem exec_cmp_keeps (rd rs : Reg) (s : State) :
    ∃ t, exec (.cmp rd rs) s = .next t ∧
      t.flags = setZNC s.flags (differenceOf (s.reg rd) (s.reg rs)) (borrowOfSub (s.reg rd) (s.reg rs)) ∧
      t.regs = s.regs ∧ restKept s t ∧ advanced 1 s t :=
  ⟨_, rfl, rfl, rfl, ⟨rfl, rfl, rfl, rfl, rfl, rfl, rfl⟩, rfl, rfl⟩

theorem finishZNC_flags (rd : Reg) (r : Word) (c : Bool) (length : Nat) (s : State) :
    ∃ u, finishZNC rd r c length s = .next u ∧ u.flags = setZNC s.flags r c := ⟨_, rfl, rfl⟩

/-- N after SUB and CMP, from the exact difference (R120, R121). -/
theorem isNegative_differenceOf_iff_emod (a b : Word) :
    isNegative (differenceOf a b) = true ↔ ((a.toNat : Int) - (b.toNat : Int)) % 65536 ≥ 32768 := by
  rw [isNegative_iff, ← toNat_differenceOf]
  exact Int.ofNat_le.symm

/-- Settles O40: SUB is `finishZNC` with the difference and the borrow, and CMP writes the same flags. -/
theorem cmpWritesTheFlagsOfSub : Obligations.CmpWritesTheFlagsOfSub := by
  intro rd rs s
  obtain ⟨t, hcmp, hflags, hregs, hrest, hadv⟩ := exec_cmp_keeps rd rs s
  obtain ⟨u, hsub, hflags'⟩ :=
    finishZNC_flags rd (differenceOf (s.reg rd) (s.reg rs)) (borrowOfSub (s.reg rd) (s.reg rs)) 1 s
  refine ⟨t, u, hcmp, hsub, hflags.trans hflags'.symm, ?z, ?n, ?c, ?v, hregs, hrest, hadv,
    by rw [encodeWords, packWord_rd_rs]; rfl⟩
  case z => rw [hflags]; exact isZero_differenceOf _ _
  case n => rw [hflags]; exact isNegative_differenceOf_iff_emod _ _
  case c => rw [hflags]; exact borrowOfSub_iff _ _
  case v => rw [hflags]; rfl

end Sys2Proof.Machine
end

section
/-! NOP and HALT (spec/47_system.md), and what `halted` means for every instruction and step (spec/10_state.md R33):
only HALT sets it, and from then on steps and runs answer the same state (log entry 9). -/

namespace Sys2Proof

/-- NOP's word is the only one of its opcode that begins an instruction (R87, R88). -/
theorem encodeWords_head_eq_zero {i : Instr} {w : Word} {rest : List Word} (h : encodeWords i = w :: rest)
    (hop : opcodeField w = 0) : w = 0x0000 := by
  cases i with
  | nop => cases h; rfl
  | _ => cases h; simp at hop

/-- The other words of opcode 0 are illegal (decision D14): a word that decodes is canonical. -/
theorem decodeHead_opcode_zero {w : Word} (hop : opcodeField w = 0) (hw : w ≠ 0x0000) :
    ∃ e, decodeHead w = .error e := by
  cases hd : decodeHead w with
  | error e => exact ⟨e, rfl⟩
  | ok head =>
    have he : head.EncodedBy w := decodeHead_encodedBy hd
    cases head with
    | complete i => exact absurd (encodeWords_head_eq_zero he hop) hw
    | needsWord build => exact absurd (encodeWords_head_eq_zero (he 0) hop) hw

end Sys2Proof

namespace Sys2Proof.Machine

/-! ### `halted` (R33) -/

/-- Of the instructions only HALT writes `halted`: `exec_next`, whose waiting load keeps the whole state. -/
theorem exec_keeps_halted {i : Instr} {s t : State} (hi : i ≠ .halt) (h : exec i s = .next t) :
    t.halted = s.halted := by
  obtain ⟨-, -, -, -, -, -, -, -, hhalted, -⟩ | ⟨a, w, u, -, -, -, -, -, -, -, -, -, -, hhalted, -⟩ |
    ⟨a, -, -, -, rfl⟩ | ⟨a, b, u, -, -, -, -, -, -, -, -, -, -, -, hhalted, -⟩ := exec_next h
  case inl => exact hhalted hi
  case inr.inl => exact hhalted
  case inr.inr.inl => rfl
  case inr.inr.inr => exact hhalted

theorem step_of_halted {s : State} (h : s.halted = true) : step s = .next s := if_pos h

/-- A state that steps to itself is where every run from it ends, on any machine. -/
theorem run_of_step_self {M : Host.Core} {s : M.State} (h : M.step s = .next s) (k : Nat) : M.run k s = .next s := by
  induction k with
  | zero => rfl
  | succ k ih => rw [Host.Core.run, h]; exact ih

theorem run_of_halted {s : State} (h : s.halted = true) (k : Nat) : core.run k s = .next s :=
  run_of_step_self (M := core) (step_of_halted h) k

/-- Settles O9: `exec_keeps_halted` and `step_of_halted`; reset and HALT write `halted` outright. -/
theorem onlyHaltSetsHalted : Obligations.OnlyHaltSetsHalted :=
  ⟨fun _ => rfl, fun s => ⟨s.halt, rfl, rfl⟩, fun _ _ _ => exec_keeps_halted, fun _ => step_of_halted⟩

/-! ### NOP and HALT (R190, R191) -/

/-- Settles O49: NOP retires at the next word, and no other word of opcode 0 decodes. -/
theorem nopOnlyAdvances : Obligations.NopOnlyAdvances := by
  refine ⟨fun s => ?nop, rfl, fun _ => decodeHead_opcode_zero⟩
  case nop =>
    obtain ⟨hregs, hflags, hrest, hcycle⟩ := retire_keeps s (nextPc s 1)
    exact ⟨_, rfl, hregs, hflags, hrest, rfl, hcycle⟩

/-- Settles O50: HALT leaves `s.halt`, which differs from `s` in `halted` and `cycle`, and which every run keeps. -/
theorem haltStopsTheMachine : Obligations.HaltStopsTheMachine := fun s =>
  ⟨s.halt, rfl, rfl, rfl, rfl, rfl, rfl, rfl, rfl, rfl, rfl, rfl, rfl, run_of_halted s.halt_halted, rfl⟩

end Sys2Proof.Machine
end

section
/-! The output devices and what a stored word is seen by (spec/60_exceptions.md R214 to R218, spec/20_memory.md R63 to
R68): every storing instruction as one data write, the string device's scan, then the statements. -/

namespace Sys2Proof.Machine

/-! ### Every instruction that stores (R51) -/

/-- An instruction that stores is one data write, from a state that differs from its own in SP at most, and then
completes. -/
theorem exec_of_storeTarget {i : Instr} {s : State} {a : Word} (h : storeTarget i s = some a) :
    ∃ b pc, b.mem = s.mem ∧ b.out = s.out ∧
      exec i s = withStored a (storeValue i s) b fun u => .next (u.retire pc) := by
  cases i with
  | stDirect addr rs => cases h; exact ⟨s, nextPc s 2, rfl, rfl, rfl⟩
  | stIndirect rd rs => cases h; exact ⟨s, nextPc s 1, rfl, rfl, rfl⟩
  | push rs => cases h; exact ⟨s.decrementSp, nextPc s 1, rfl, rfl, rfl⟩
  | call addr => cases h; exact ⟨s.decrementSp, addr, rfl, rfl, rfl⟩
  | _ => cases h

theorem stores_of_storeTarget {i : Instr} {s : State} {a : Word} (h : storeTarget i s = some a) :
    stores i a (storeValue i s) s fun _ => True := by
  obtain ⟨b, pc, hmem, hout, hexec⟩ := exec_of_storeTarget h
  exact stores_of_withStored hexec hmem hout (fun _ => trivial) fun _ => trivial

/-- Settles O51: the two clauses of `stores` on these devices, for whichever instruction stores. -/
theorem outputDevicesEmitTheWordWritten : Obligations.OutputDevicesEmitTheWordWritten := by
  refine fun i s => ⟨fun h => ?char, fun h => ?int⟩
  case char =>
    obtain ⟨-, hchar, -⟩ := stores_of_storeTarget h
    obtain ⟨t, ht, -, hmem, hout⟩ := hchar rfl
    rw [← lowByte_eq_setWidth] at hout
    exact ⟨t, ht, hout, hmem⟩
  case int =>
    obtain ⟨-, -, hint, -⟩ := stores_of_storeTarget h
    obtain ⟨t, ht, -, hmem, hout⟩ := hint rfl
    exact ⟨t, ht, hout, hmem⟩

/-! ### One step of the scan (R217, R218) -/

theorem scanString_unwritten {m : Memory} {a : Word} (n : Nat) (hr : m.readWord a = none) :
    scanString m (n + 1) a = .error (.uninitialisedRead a) := by
  rw [scanString, hr]

theorem scanString_terminator {m : Memory} {a : Word} (n : Nat) (hr : m.readWord a = some 0x0000) :
    scanString m (n + 1) a = .ok [] := by
  rw [scanString, hr]
  exact if_pos rfl

theorem scanString_halfZero {m : Memory} {a w : Word} (n : Nat) (hr : m.readWord a = some w) (hw : w ≠ 0x0000)
    (hlow : lowByte w = 0x00) : scanString m (n + 1) a = .error (.stringScanFault a) := by
  simp only [scanString, hr, if_neg hw, if_pos hlow]

/-- A character in the low byte is the first of the string that the rest of the scan gives. -/
theorem scanString_char {m : Memory} {a w : Word} (n : Nat) (hr : m.readWord a = some w) (hlow : lowByte w ≠ 0x00) :
    scanString m (n + 1) a = (scanString m n (a + 1)).map (lowByte w :: ·) := by
  have hw : w ≠ 0x0000 := by rintro rfl; exact hlow rfl
  simp only [scanString, hr, if_neg hw, if_neg hlow]
  cases scanString m n (a + 1) <;> rfl

/-! ### The scan of the string device, which ends at the I/O region -/

/-- The scan that a write of `a` to the string device makes. -/
def deviceScan (m : Memory) (a : Word) : Except Fault (List Byte) := scanString m (0xF800 - a.toNat) a

theorem memWrite_strOut (v : Word) (s : State) :
    memWrite 0xF802 v s = (deviceScan s.mem v).map fun bs => s.emit (.strOut bs) := by
  show strOut v s = _
  rw [strOut, ← deviceScan]
  cases deviceScan s.mem v <;> rfl

/-- The words left below the I/O region, counted from an address with storage behind it and from the next. -/
theorem distance_succ {a : Word} (ha : InStorage a) : 0xF800 - a.toNat = 0xF800 - (a + 1).toNat + 1 := by
  have next : (a + 1).toNat = a.toNat + 1 :=
    BitVec.toNat_add_of_lt (show a.toNat + 1 < 2 ^ 16 by omega)
  omega

theorem deviceScan_storage {m : Memory} {a : Word} (ha : InStorage a) :
    deviceScan m a = scanString m (0xF800 - (a + 1).toNat + 1) a := by
  rw [deviceScan, distance_succ ha]

theorem deviceScan_io {m : Memory} {a : Word} (ha : ¬InStorage a) : deviceScan m a = .error (.stringScanFault a) := by
  rw [deviceScan, Nat.sub_eq_zero_of_le (Nat.le_of_not_lt ha), scanString]

/-- A scan that gives a string has met the terminator, or a character with the rest of the string after it. -/
theorem deviceScan_ok {m : Memory} {a : Word} {bs : List Byte} (h : deviceScan m a = .ok bs) :
    (m.readWord a = some 0x0000 ∧ bs = []) ∨
    ∃ w rest, InStorage a ∧ m.readWord a = some w ∧ lowByte w ≠ 0x00 ∧ deviceScan m (a + 1) = .ok rest ∧
      bs = lowByte w :: rest := by
  by_cases ha : InStorage a
  case neg => rw [deviceScan_io ha] at h; cases h
  rw [deviceScan_storage ha] at h
  cases hr : m.readWord a with
  | none => rw [scanString_unwritten _ hr] at h; cases h
  | some w =>
    by_cases hlow : lowByte w = 0x00
    case pos =>
      by_cases hw : w = 0x0000
      · subst hw
        rw [scanString_terminator _ hr] at h
        cases h
        exact .inl ⟨rfl, rfl⟩
      · rw [scanString_halfZero _ hr hw hlow] at h
        cases h
    case neg =>
      rw [scanString_char _ hr hlow, ← deviceScan] at h
      cases hrest : deviceScan m (a + 1) with
      | error f => rw [hrest] at h; cases h
      | ok rest => rw [hrest] at h; cases h; exact .inr ⟨w, rest, ha, rfl, hlow, rfl, rfl⟩

/-- The address behind a text, counted from its second word. -/
theorem add_ofNat_succ (a : Word) (n : Nat) : a + BitVec.ofNat 16 (n + 1) = a + 1 + BitVec.ofNat 16 n := by
  rw [Nat.add_comm, BitVec.ofNat_add, BitVec.add_assoc]
  rfl

/-- The scan of a text goes on behind it, and what it finds there comes after the text's characters. -/
theorem deviceScan_text {m : Memory} {ws : List Word} : ∀ {a : Word}, holdsText m a ws →
    deviceScan m a = (deviceScan m (a + BitVec.ofNat 16 ws.length)).map (ws.map lowByte ++ ·) := by
  induction ws with
  | nil =>
    intro a _
    rw [List.length_nil, BitVec.add_zero]
    cases deviceScan m a <;> rfl
  | cons w ws ih =>
    rintro a ⟨⟨ha, hr, hrest⟩, hchars⟩
    obtain ⟨hlow, hlows⟩ := List.forall_mem_cons.mp hchars
    rw [deviceScan_storage ha, scanString_char _ hr hlow, ← deviceScan, ih ⟨hrest, hlows⟩, List.length_cons,
      add_ofNat_succ]
    cases deviceScan m (a + 1 + BitVec.ofNat 16 ws.length) <;> rfl

/-- A string that a scan gives is a text with the terminator behind it. -/
theorem exists_text_of_deviceScan {m : Memory} {bs : List Byte} : ∀ {a : Word}, deviceScan m a = .ok bs →
    ∃ ws, holdsText m a ws ∧ bs = ws.map lowByte ∧ m.readWord (a + BitVec.ofNat 16 ws.length) = some 0x0000 := by
  induction bs with
  | nil =>
    intro a h
    obtain ⟨hend, -⟩ | ⟨w, rest, -, -, -, -, hbs⟩ := deviceScan_ok h
    · refine ⟨[], ⟨trivial, List.forall_mem_nil _⟩, rfl, ?_⟩
      rwa [List.length_nil, BitVec.add_zero]
    · cases hbs
  | cons b bs ih =>
    intro a h
    obtain ⟨-, hbs⟩ | ⟨w, rest, ha, hr, hlow, hscan, hbs⟩ := deviceScan_ok h
    · cases hbs
    · cases hbs
      obtain ⟨ws, ⟨hwords, hchars⟩, hmap, hend⟩ := ih hscan
      refine ⟨w :: ws, ⟨⟨ha, hr, hwords⟩, List.forall_mem_cons.mpr ⟨hlow, hchars⟩⟩, congrArg (lowByte w :: ·) hmap, ?_⟩
      rwa [List.length_cons, add_ofNat_succ]

/-! ### A write to the string device -/

theorem exec_strOut_ok {i : Instr} {s : State} {bs : List Byte} (h : storeTarget i s = some 0xF802)
    (hscan : deviceScan s.mem (storeValue i s) = .ok bs) :
    ∃ t, exec i s = .next t ∧ t.out = s.out ++ [.strOut bs] ∧ t.mem = s.mem := by
  obtain ⟨b, pc, hmem, hout, hexec⟩ := exec_of_storeTarget h
  have hwrite : memWrite 0xF802 (storeValue i s) b = .ok (b.emit (.strOut bs)) := by
    rw [memWrite_strOut, hmem, hscan]
    rfl
  exact ⟨_, hexec.trans (withStored_ok hwrite), by rw [State.retire_out, State.emit_out, hout], hmem⟩

theorem exec_strOut_error {i : Instr} {s : State} {f : Fault} (h : storeTarget i s = some 0xF802)
    (hscan : deviceScan s.mem (storeValue i s) = .error f) : exec i s = .fault f := by
  obtain ⟨b, pc, hmem, -, hexec⟩ := exec_of_storeTarget h
  refine hexec.trans (withStored_error ?_)
  rw [memWrite_strOut, hmem, hscan]
  rfl

/-- A fault that the scan meets behind a text is the instruction's. -/
theorem exec_strOut_fault_behind_text {i : Instr} {s : State} {ws : List Word} {f : Fault}
    (h : storeTarget i s = some 0xF802) (htext : holdsText s.mem (storeValue i s) ws)
    (hbehind : deviceScan s.mem (storeValue i s + BitVec.ofNat 16 ws.length) = .error f) : exec i s = .fault f := by
  refine exec_strOut_error h ?_
  rw [deviceScan_text htext, hbehind]
  rfl

/-- Settles O52: the scan goes on behind the text, and what it meets there decides. -/
theorem stringDeviceEmitsTheString : Obligations.StringDeviceEmitsTheString := by
  intro i s ws h htext
  refine ⟨fun hin hend => ?terminator, fun hin hnone => ?unwritten, fun hio => ?io⟩
  case terminator =>
    refine exec_strOut_ok h ?_
    rw [deviceScan_text htext, deviceScan_storage hin, scanString_terminator _ hend]
    exact congrArg Except.ok (List.append_nil _)
  case unwritten =>
    exact exec_strOut_fault_behind_text h htext ((deviceScan_storage hin).trans (scanString_unwritten _ hnone))
  case io => exact exec_strOut_fault_behind_text h htext (deviceScan_io hio)

/-- Settles O53: the scan faults at the half-zero word, and one that does not fault gives a text. -/
theorem stringScanStopsOnAHalfZeroWord : Obligations.StringScanStopsOnAHalfZeroWord := by
  refine ⟨fun i s ws w h htext hin hr hw hlow => ?halfZero, fun i s t h ht => ?ends⟩
  case halfZero =>
    exact exec_strOut_fault_behind_text h htext ((deviceScan_storage hin).trans (scanString_halfZero _ hr hw hlow))
  case ends =>
    cases hscan : deviceScan s.mem (storeValue i s) with
    | error f => rw [exec_strOut_error h hscan] at ht; cases ht
    | ok bs =>
      obtain ⟨u, hu, hout, -⟩ := exec_strOut_ok h hscan
      obtain rfl : u = t := Host.Outcome.next.inj (hu.symm.trans ht)
      obtain ⟨ws, htext, rfl, hend⟩ := exists_text_of_deviceScan hscan
      exact ⟨ws, htext, hout, hend⟩

/-! ### What sees a stored word (R63, R66, R68) -/

theorem readWord_of_bytesKeptBut {a b : Word} {s t : State} (h : bytesKeptBut a s t) (hb : b ≠ a) :
    t.mem.readWord b = s.mem.readWord b := by
  have hne : b.toNat ≠ a.toNat := fun heq => hb (BitVec.eq_of_toNat_eq heq)
  have low : t.mem.readCell (lowKey b) = s.mem.readCell (lowKey b) :=
    h _ (by simp only [lowKey]; omega) (by simp only [lowKey, highKey]; omega)
  have high : t.mem.readCell (highKey b) = s.mem.readCell (highKey b) :=
    h _ (by simp only [lowKey, highKey]; omega) (by simp only [highKey]; omega)
  rw [Memory.readWord, low, high, ← Memory.readWord]

/-- A fetch depends on the word at its address alone (R59). -/
theorem fetch_congr {a : Word} {s t : State} (h : t.mem.readWord a = s.mem.readWord a) : fetch a t = fetch a s := by
  rw [fetch, h, ← fetch]

/-- A word stands until an instruction stores at its address. -/
theorem exec_keeps_readWord {i : Instr} {s t : State} {a : Word} (h : exec i s = .next t)
    (ha : storeTarget i s ≠ some a) : t.mem.readWord a = s.mem.readWord a := by
  obtain ⟨-, -, hmem, -⟩ | ⟨-, -, -, -, -, -, -, hmem, -⟩ | ⟨-, -, -, -, rfl⟩ |
    ⟨c, b, u, hstore, -, hb, hwrite, -, hmem, -⟩ := exec_next h
  case inl => rw [hmem]
  case inr.inl => rw [hmem]
  case inr.inr.inl => rfl
  case inr.inr.inr =>
    have hbmem : b.mem = s.mem := by obtain rfl | rfl := hb <;> rfl
    have hne : a ≠ c := by rintro rfl; exact ha hstore
    obtain ⟨-, rfl⟩ | ⟨-, e, rfl⟩ := memWrite_ok hwrite
    · rw [hmem, State.setMem_mem, Memory.readWord_writeWord_other _ _ hne, hbmem]
    · rw [hmem, State.emit_mem, hbmem]

/-- What the four loads leave of a word in storage: in Rd, with SP one up where POP loads SP, or in `pc`. -/
theorem exec_load_of_storage {i : Instr} {s : State} {a v : Word} (ha : InStorage a) (hr : s.mem.readWord a = some v)
    (h : loadSource i s = some a) : ∃ t, exec i s = .next t ∧
      (∀ rd, i = .ldDirect rd a → t.reg rd = v) ∧ (∀ rd rs, i = .ldIndirect rd rs → t.reg rd = v) ∧
      (∀ rd, i = .pop rd → rd ≠ .r7 → t.reg rd = v) ∧ (i = .pop .r7 → t.reg .r7 = v + 1) ∧ (i = .ret → t.pc = v) := by
  cases i with
  | ldDirect rd addr =>
    cases h
    obtain ⟨⟨hload, -⟩, -⟩ := ldDirectLoadsTheWord rd addr s
    obtain ⟨t, ht, hrd, -⟩ := hload v ha hr
    exact ⟨t, ht, by rintro _ ⟨⟩; exact hrd, nofun, nofun, nofun, nofun⟩
  | ldIndirect rd rs =>
    cases h
    obtain ⟨⟨hload, -⟩, -⟩ := ldIndirectLoadsTheWord rd rs s
    obtain ⟨t, ht, hrd, -⟩ := hload v ha hr
    exact ⟨t, ht, nofun, by rintro _ _ ⟨⟩; exact hrd, nofun, nofun, nofun⟩
  | pop rd =>
    cases h
    obtain ⟨⟨hload, -⟩, -⟩ := popLoadsAtTheStackPointer rd s
    obtain ⟨t, ht, hsp, hrd, -⟩ := hload v ha hr
    exact ⟨t, ht, nofun, nofun, by rintro _ ⟨⟩ hne; exact (hrd hne).1, by rintro ⟨⟩; exact hsp rfl, nofun⟩
  | ret =>
    cases h
    obtain ⟨⟨hload, -⟩, -⟩ := retPopsTheProgramCounter s
    obtain ⟨t, ht, hpc, -⟩ := hload v ha hr
    exact ⟨t, ht, nofun, nofun, nofun, nofun, fun _ => hpc⟩
  | _ => cases h

/-- Settles O28: `stores` for the store itself, `exec_keeps_readWord` for what comes after it, and for what sees the word
the fetch and the loads of storage and one step of the scan. -/
theorem storeIsSeenByLoadsAndFetches : Obligations.StoreIsSeenByLoadsAndFetches := by
  refine ⟨fun i s a h ha => ?stands, fun i s t a v hr ha h => (exec_keeps_readWord h ha).trans hr,
    fun s a v ha hr => ⟨fetch_storage ha hr, fun i => exec_load_of_storage ha hr, fun n => ?scan⟩⟩
  case stands =>
    obtain ⟨hstore, -⟩ := stores_of_storeTarget h
    obtain ⟨t, ht, -, hword, hkept, -⟩ := hstore ha
    refine ⟨t, ht, hword, fun b hb => ?_⟩
    have hread : t.mem.readWord b = s.mem.readWord b := readWord_of_bytesKeptBut hkept hb
    exact ⟨hread, fetch_congr hread⟩
  case scan =>
    refine ⟨?terminator, fun hv => scanString_halfZero n hr hv, fun bs hlow hrest => ?char, fun f hlow hrest => ?fault⟩
    case terminator => rintro rfl; exact scanString_terminator n hr
    case char => rw [scanString_char n hr hlow, hrest]; rfl
    case fault => rw [scanString_char n hr hlow, hrest]; rfl

end Sys2Proof.Machine
end

section
/-! The encoder and the decoder are inverse to each other (spec/30_encoding.md R80 to R95): on the first word of an
instruction, then on bytes. -/

namespace Sys2Proof

/-! ### From the instruction to its words and back -/

/-- The first word of an instruction's encoding decodes to the instruction, with its second word where it has one. -/
theorem decodeHead_encodeWords (i : Instr) :
    (∃ w, encodeWords i = [w] ∧ decodeHead w = .ok (.complete i)) ∨
    ∃ w w1 build, encodeWords i = [w, w1] ∧ decodeHead w = .ok (.needsWord build) ∧ build w1 = i := by
  cases i with
  | nop | ret | halt => exact .inl ⟨_, rfl, rfl⟩
  | beq | bne | bgt | blt | bge | ble | bcs | bcc | jmp | call => exact .inr ⟨_, _, _, rfl, rfl, rfl⟩
  | inc rd | dec rd | not rd | pop rd => exact .inl ⟨_, rfl, by simp [decodeHead, onlyRd]⟩
  | ldi rd imm => exact .inr ⟨_, imm, .ldi rd, rfl, by simp [decodeHead, onlyRd], rfl⟩
  | ldDirect rd addr => exact .inr ⟨_, addr, .ldDirect rd, rfl, by simp [decodeHead, onlyRd], rfl⟩
  | addi rd imm => exact .inr ⟨_, imm, .addi rd, rfl, by simp [decodeHead, onlyRd], rfl⟩
  | subi rd imm => exact .inr ⟨_, imm, .subi rd, rfl, by simp [decodeHead, onlyRd], rfl⟩
  | push rs => exact .inl ⟨_, rfl, by simp [decodeHead, onlyRs]⟩
  | stDirect addr rs => exact .inr ⟨_, addr, (.stDirect · rs), rfl, by simp [decodeHead, onlyRs], rfl⟩
  | _ => exact .inl ⟨_, rfl, by simp [decodeHead, bothFields]⟩

/-! ### Bytes (R52) -/

theorem wordBytes_joinBytes (low high : Byte) : wordBytes (joinBytes low high) = [low, high] := by
  rw [wordBytes, lowByte_joinBytes, highByte_joinBytes]

theorem encodeBytes_eq {i : Instr} {ws : List Word} (h : encodeWords i = ws) : encodeBytes i = ws.flatMap wordBytes :=
  congrArg (List.flatMap wordBytes) h

theorem decodeBytes_complete {w : Word} {i : Instr} (hd : decodeHead w = .ok (.complete i)) (rest : List Byte) :
    decodeBytes (lowByte w :: highByte w :: rest) = .ok (i, rest) := by
  simp only [decodeBytes, joinBytes_lowByte_highByte, hd]

theorem decodeBytes_needsWord {w : Word} {build : Word → Instr} (hd : decodeHead w = .ok (.needsWord build)) (w1 : Word)
    (rest : List Byte) :
    decodeBytes (lowByte w :: highByte w :: lowByte w1 :: highByte w1 :: rest) = .ok (build w1, rest) := by
  simp only [decodeBytes, joinBytes_lowByte_highByte, hd]

/-- Bytes that decode begin with a first word that does, and go on with the second word it asks for. -/
theorem decodeBytes_ok {bytes rest : List Byte} {i : Instr} (h : decodeBytes bytes = .ok (i, rest)) :
    (∃ w, bytes = wordBytes w ++ rest ∧ decodeHead w = .ok (.complete i)) ∨
    ∃ w w1 build, bytes = wordBytes w ++ wordBytes w1 ++ rest ∧ decodeHead w = .ok (.needsWord build) ∧
      build w1 = i := by
  unfold decodeBytes at h
  split at h
  case h_1 low high tail =>
    split at h
    case h_1 => cases h
    case h_2 j hd =>
      cases h
      exact .inl ⟨_, by rw [wordBytes_joinBytes]; rfl, hd⟩
    case h_3 build hd =>
      split at h
      case h_1 low2 high2 tail2 =>
        cases h
        exact .inr ⟨_, _, build, by rw [wordBytes_joinBytes, wordBytes_joinBytes]; rfl, hd, rfl⟩
      case h_2 => cases h
  case h_2 => cases h

/-! ### The statements -/

/-- Settles O2: the first word decodes to the instruction, and the bytes are those of its words. -/
theorem decodeOfEncodeIsTheInstruction : Obligations.DecodeOfEncodeIsTheInstruction := by
  intro i rest
  obtain ⟨w, hwords, hd⟩ | ⟨w, w1, build, hwords, hd, rfl⟩ := decodeHead_encodeWords i
  · rw [encodeBytes_eq hwords]
    exact decodeBytes_complete hd rest
  · rw [encodeBytes_eq hwords]
    exact decodeBytes_needsWord hd w1 rest

/-- Settles O3: a first word that decodes is the canonical one, and a second word is used as it stands. -/
theorem decodedBytesAreTheEncoding : Obligations.DecodedBytesAreTheEncoding := by
  intro bytes i rest h
  obtain ⟨w, rfl, hd⟩ | ⟨w, w1, build, rfl, hd, rfl⟩ := decodeBytes_ok h
  · rw [encodeBytes_eq (decodeHead_encodedBy hd)]; rfl
  · rw [encodeBytes_eq (decodeHead_encodedBy hd w1)]; rfl

/-- Settles O1: the decoder runs on the words. -/
theorem sampleWordsDecode : Obligations.SampleWordsDecode := by
  unfold Obligations.SampleWordsDecode
  decide

end Sys2Proof
end

section
/-! Which first words are legal (spec/30_encoding.md R87 to R95, decision D14, log entry 23): the masks and patterns of the
opcode table as fields of the word, then the decoder's arms by format, each judged by the one row of its OPCODE and Mode. -/

namespace Sys2Proof

/-! ### A masked word, field by field (R89) -/

theorem packWord_and (op op' : BitVec 4) (rd rd' rs rs' : BitVec 3) (mode mode' : BitVec 6) :
    packWord op rd rs mode &&& packWord op' rd' rs' mode' =
      packWord (op &&& op') (rd &&& rd') (rs &&& rs') (mode &&& mode') := by
  apply BitVec.eq_of_getLsbD_eq
  intro i hi
  simp only [packWord, BitVec.getLsbD_and, BitVec.getLsbD_or, BitVec.getLsbD_shiftLeft, BitVec.getLsbD_setWidth]
  interval_cases i <;> simp

theorem packWord_inj {op op' : BitVec 4} {rd rd' rs rs' : BitVec 3} {mode mode' : BitVec 6} :
    packWord op rd rs mode = packWord op' rd' rs' mode' ↔ op = op' ∧ rd = rd' ∧ rs = rs' ∧ mode = mode' := by
  refine ⟨fun h => ?_, by rintro ⟨rfl, rfl, rfl, rfl⟩; rfl⟩
  have hop := congrArg opcodeField h
  have hrd := congrArg rdField h
  have hrs := congrArg rsField h
  have hmode := congrArg modeField h
  simp only [opcodeField_packWord, rdField_packWord, rsField_packWord, modeField_packWord] at hop hrd hrs hmode
  exact ⟨hop, hrd, hrs, hmode⟩

theorem and_seven (x : BitVec 3) : x &&& 7 = x := BitVec.and_allOnes

/-- A mask that selects all of OPCODE, and of the other fields what `rd`, `rs` and `mode` select. -/
theorem and_mask (w : Word) (rd rs : BitVec 3) (mode : BitVec 6) :
    w &&& packWord 0xF rd rs mode =
      packWord (opcodeField w) (rdField w &&& rd) (rsField w &&& rs) (modeField w &&& mode) := by
  have hop : opcodeField w &&& 0xF = opcodeField w := BitVec.and_allOnes
  conv_lhs => rw [← packWord_fields w, packWord_and, hop]

/-- A strict mask of R89 selects all of Mode too. -/
theorem and_strictMask (w : Word) (rd rs : BitVec 3) :
    w &&& packWord 0xF rd rs 0x3F = packWord (opcodeField w) (rdField w &&& rd) (rsField w &&& rs) (modeField w) := by
  have hmode : modeField w &&& 0x3F = modeField w := BitVec.and_allOnes
  rw [and_mask, hmode]

theorem opcodeAndMode_eq (w : Word) : opcodeAndMode w = packWord (opcodeField w) 0 0 (modeField w) := by
  rw [opcodeAndMode, show (0xF03F : Word) = packWord 0xF 0 0 0x3F from rfl, and_strictMask]
  simp

/-- A word equals its OPCODE and Mode under a mask where the register fields the mask selects are zero. -/
theorem and_mask_eq_opcodeAndMode_iff (w : Word) (rd rs : BitVec 3) :
    w &&& packWord 0xF rd rs 0x3F = opcodeAndMode w ↔ rdField w &&& rd = 0 ∧ rsField w &&& rs = 0 := by
  rw [and_strictMask, opcodeAndMode_eq, packWord_inj]
  simp

theorem opcodeIsReserved_iff (w : Word) :
    opcodeIsReserved w = true ↔ (opcodeField w).toNat = 0xD ∨ (opcodeField w).toNat = 0xE := by
  have masked : w &&& packWord 0xF 0 0 0 = packWord (opcodeField w) 0 0 0 := by
    rw [and_mask]
    simp
  have only : ∀ op, packWord (opcodeField w) 0 0 0 = packWord op 0 0 0 ↔ (opcodeField w).toNat = op.toNat := by
    intro op
    rw [packWord_inj, BitVec.toNat_eq]
    simp
  rw [← masked] at only
  rw [opcodeIsReserved, Bool.or_eq_true, beq_iff_eq, beq_iff_eq]
  exact or_congr (only 0xD) (only 0xE)

/-! ### The rows of an OPCODE and a Mode (R87) -/

/-- The strict masks of the rows with this OPCODE and Mode, the other fields zero. -/
def masksAt (pattern : Word) : List Word := (opcodeTable.filter (pattern == ·.pattern)).map Row.mask

theorem masksAt_of_fields {w : Word} {op mode : Nat} {masks : List Word} (hop : (opcodeField w).toNat = op)
    (hmode : (modeField w).toNat = mode) (h : masksAt (packWord (.ofNat 4 op) 0 0 (.ofNat 6 mode)) = masks) :
    masksAt (opcodeAndMode w) = masks := by
  rwa [← hop, ← hmode, BitVec.ofNat_toNat, BitVec.ofNat_toNat, BitVec.setWidth_eq, BitVec.setWidth_eq,
    ← opcodeAndMode_eq] at h

theorem modeIsDefined_iff (w : Word) : modeIsDefined w = true ↔ ∃ row ∈ opcodeTable, opcodeAndMode w = row.pattern := by
  rw [modeIsDefined, List.any_eq_true]
  simp only [beq_iff_eq]

/-- A word that matches a row has the row's OPCODE and Mode: every strict mask selects all of both. -/
theorem hits_iff {row : Row} (hrow : row ∈ opcodeTable) (w : Word) :
    row.hits w = true ↔ opcodeAndMode w = row.pattern ∧ w &&& row.mask = opcodeAndMode w := by
  have table : ∀ row ∈ opcodeTable, row.mask &&& 0xF03F = 0xF03F ∧ row.pattern &&& 0xF03F = row.pattern := by decide
  obtain ⟨hmask, hpattern⟩ := table row hrow
  rw [Row.hits, beq_iff_eq]
  refine ⟨fun h => ?_, fun ⟨hmode, hstrict⟩ => hstrict.trans hmode⟩
  have hmode : opcodeAndMode w = row.pattern := by
    rw [opcodeAndMode, ← hmask, ← BitVec.and_assoc, h, hpattern]
  exact ⟨hmode, h.trans hmode.symm⟩

theorem legalWord_iff (w : Word) :
    legalWord w = true ↔ ∃ row ∈ opcodeTable, opcodeAndMode w = row.pattern ∧ w &&& row.mask = opcodeAndMode w := by
  rw [legalWord, List.any_eq_true]
  exact exists_congr fun row => and_congr_right fun hrow => hits_iff hrow w

theorem modeIsDefined_of_legalWord {w : Word} (h : legalWord w = true) : modeIsDefined w = true := by
  obtain ⟨row, hrow, hmode, -⟩ := (legalWord_iff w).mp h
  exact (modeIsDefined_iff w).mpr ⟨row, hrow, hmode⟩

theorem not_legalWord_of_not_modeIsDefined {w : Word} (h : modeIsDefined w = false) : legalWord w = false :=
  Bool.eq_false_iff.mpr (mt modeIsDefined_of_legalWord (ne_true_of_eq_false h))

/-- No row has a reserved opcode (R94). -/
theorem not_opcodeIsReserved_of_modeIsDefined {w : Word} (h : modeIsDefined w = true) : opcodeIsReserved w = false := by
  have table : ∀ row ∈ opcodeTable, opcodeIsReserved row.pattern = false := by decide
  obtain ⟨row, hrow, hmode⟩ := (modeIsDefined_iff w).mp h
  have hrest := table row hrow
  rw [← hmode, Bool.eq_false_iff, ne_eq, opcodeIsReserved_iff, opcodeAndMode_eq, opcodeField_packWord,
    ← opcodeIsReserved_iff] at hrest
  exact Bool.eq_false_iff.mpr hrest

/-- What the table says of a word whose OPCODE and Mode have one row: the word is legal where the fields that the row's
mask selects are zero. -/
theorem legalWord_iff_of_masksAt {w : Word} {rd rs : BitVec 3}
    (h : masksAt (opcodeAndMode w) = [packWord 0xF rd rs 0x3F]) :
    modeIsDefined w = true ∧ (legalWord w = true ↔ rdField w &&& rd = 0 ∧ rsField w &&& rs = 0) := by
  have rows : ∀ mask, (∃ row ∈ opcodeTable, opcodeAndMode w = row.pattern ∧ row.mask = mask) ↔
      mask = packWord 0xF rd rs 0x3F := by
    intro mask
    rw [← List.mem_singleton, ← h]
    simp [masksAt, and_assoc]
  refine ⟨?_, ?_⟩
  · obtain ⟨row, hrow, hmode, -⟩ := (rows _).mpr rfl
    exact (modeIsDefined_iff w).mpr ⟨row, hrow, hmode⟩
  · rw [legalWord_iff, ← and_mask_eq_opcodeAndMode_iff]
    constructor
    · rintro ⟨row, hrow, hmode, hstrict⟩
      rwa [(rows _).mp ⟨row, hrow, hmode, rfl⟩] at hstrict
    · intro hstrict
      obtain ⟨row, hrow, hmode, hmask⟩ := (rows _).mpr rfl
      exact ⟨row, hrow, hmode, by rwa [hmask]⟩

/-! ### The decoder's answer, judged by the table -/

/-- What the table has to say of the word for the decoder's answer to be right. -/
def Judged (w : Word) : Except Reject Head → Prop
  | .ok _ => opcodeIsReserved w = false ∧ modeIsDefined w = true ∧ legalWord w = true
  | .error .unusedFieldNotZero => opcodeIsReserved w = false ∧ modeIsDefined w = true ∧ legalWord w = false
  | .error .undefinedMode => opcodeIsReserved w = false ∧ modeIsDefined w = false ∧ legalWord w = false
  | .error .reservedOpcode => opcodeIsReserved w = true ∧ modeIsDefined w = false ∧ legalWord w = false
  | .error .truncated => False

/-- The four formats of R89 in one: `p` asks that the register fields the row's mask selects be zero. -/
theorem judged_format {w : Word} {h : Head} {rd rs : BitVec 3} {p : Prop} [Decidable p]
    (hmask : masksAt (opcodeAndMode w) = [packWord 0xF rd rs 0x3F])
    (hp : rdField w &&& rd = 0 ∧ rsField w &&& rs = 0 ↔ p) :
    Judged w (if p then .ok h else .error .unusedFieldNotZero) := by
  obtain ⟨hdefined, hlegal⟩ := legalWord_iff_of_masksAt hmask
  have hopcode := not_opcodeIsReserved_of_modeIsDefined hdefined
  rw [hp] at hlegal
  split
  case isTrue hzero => exact ⟨hopcode, hdefined, hlegal.mpr hzero⟩
  case isFalse hzero => exact ⟨hopcode, hdefined, Bool.eq_false_iff.mpr (mt hlegal.mp hzero)⟩

theorem noFields_judged {w : Word} (h : Head) (hmask : masksAt (opcodeAndMode w) = [0xFFFF]) :
    Judged w (noFields w h) := by
  exact judged_format (rd := 7) (rs := 7) hmask (by rw [and_seven, and_seven])

theorem onlyRd_judged {w : Word} (h : Head) (hmask : masksAt (opcodeAndMode w) = [0xF1FF]) :
    Judged w (onlyRd w h) := by
  exact judged_format (rd := 0) (rs := 7) hmask (by rw [and_seven]; simp)

theorem onlyRs_judged {w : Word} (h : Head) (hmask : masksAt (opcodeAndMode w) = [0xFE3F]) :
    Judged w (onlyRs w h) := by
  exact judged_format (rd := 7) (rs := 0) hmask (by rw [and_seven]; simp)

theorem bothFields_judged {w : Word} (h : Head) (hmask : masksAt (opcodeAndMode w) = [0xF03F]) :
    Judged w (bothFields w h) := by
  have unmasked := judged_format (h := h) (rd := 0) (rs := 0) (p := True) hmask (by simp)
  rwa [if_pos trivial] at unmasked

theorem reserved_judged {w : Word} (h : (opcodeField w).toNat = 0xD ∨ (opcodeField w).toNat = 0xE) :
    Judged w (.error .reservedOpcode) := by
  have hopcode := (opcodeIsReserved_iff w).mpr h
  have hdefined : modeIsDefined w = false := by
    rw [Bool.eq_false_iff]
    intro hd
    rw [not_opcodeIsReserved_of_modeIsDefined hd] at hopcode
    cases hopcode
  exact ⟨hopcode, hdefined, not_legalWord_of_not_modeIsDefined hdefined⟩

/-! ### A Mode that its OPCODE does not define (R93) -/

theorem noFields_ne_undefinedMode (w : Word) (h : Head) : noFields w h ≠ .error .undefinedMode := by
  unfold noFields; split <;> nofun

theorem onlyRd_ne_undefinedMode (w : Word) (h : Head) : onlyRd w h ≠ .error .undefinedMode := by
  unfold onlyRd; split <;> nofun

theorem onlyRs_ne_undefinedMode (w : Word) (h : Head) : onlyRs w h ≠ .error .undefinedMode := by
  unfold onlyRs; split <;> nofun

/-- Whether the Mode is undefined shows in OPCODE and Mode alone. -/
theorem decodeHead_undefinedMode_congr {v w : Word} (hop : opcodeField v = opcodeField w)
    (hmode : modeField v = modeField w) (hd : decodeHead v = .error .undefinedMode) :
    decodeHead w = .error .undefinedMode := by
  revert hd
  unfold decodeHead
  rw [← hop, ← hmode]
  split
  case h_1 | h_35 | h_37 | h_23 | h_24 | h_25 | h_26 | h_27 | h_28 | h_29 | h_30 | h_31 | h_34 =>
    exact fun hd => absurd hd (noFields_ne_undefinedMode _ _)
  case h_2 | h_3 | h_12 | h_13 | h_14 | h_15 | h_19 | h_33 =>
    exact fun hd => absurd hd (onlyRd_ne_undefinedMode _ _)
  case h_5 | h_32 => exact fun hd => absurd hd (onlyRs_ne_undefinedMode _ _)
  case h_40 => exact fun _ => rfl
  all_goals exact nofun

/-- Every row's own word decodes, so a word with its OPCODE and Mode has a defined Mode. -/
theorem not_modeIsDefined_of_undefinedMode {w : Word} (hd : decodeHead w = .error .undefinedMode) :
    modeIsDefined w = false := by
  have table : ∀ row ∈ opcodeTable, (decodeHead row.pattern).isOk = true := by decide
  rw [Bool.eq_false_iff, ne_eq, modeIsDefined_iff]
  rintro ⟨row, hrow, hmode⟩
  have hrest := table row hrow
  rw [← hmode, decodeHead_undefinedMode_congr (w := opcodeAndMode w) ?_ ?_ hd] at hrest
  · cases hrest
  · rw [opcodeAndMode_eq, opcodeField_packWord]
  · rw [opcodeAndMode_eq, modeField_packWord]

/-- The decoder's arms, each by the mask of its OPCODE and Mode. -/
theorem decodeHead_judged (w : Word) : Judged w (decodeHead w) := by
  have undefined := not_modeIsDefined_of_undefinedMode (w := w)
  revert undefined
  unfold decodeHead
  split <;> intro undefined
  case h_1 hop hmode | h_23 hop hmode | h_24 hop hmode | h_25 hop hmode | h_26 hop hmode | h_27 hop hmode |
      h_28 hop hmode | h_29 hop hmode | h_30 hop hmode | h_31 hop hmode | h_34 hop hmode | h_35 hop hmode |
      h_37 hop hmode =>
    exact noFields_judged _ (masksAt_of_fields hop hmode rfl)
  case h_2 hop hmode | h_3 hop hmode | h_12 hop hmode | h_13 hop hmode | h_14 hop hmode | h_15 hop hmode |
      h_19 hop hmode | h_33 hop hmode =>
    exact onlyRd_judged _ (masksAt_of_fields hop hmode rfl)
  case h_5 hop hmode | h_32 hop hmode => exact onlyRs_judged _ (masksAt_of_fields hop hmode rfl)
  case h_38 hop => exact reserved_judged (.inl hop)
  case h_39 hop => exact reserved_judged (.inr hop)
  case h_40 =>
    have hdefined : modeIsDefined w = false := undefined rfl
    have hopcode : opcodeIsReserved w = false := by
      rw [Bool.eq_false_iff, ne_eq, opcodeIsReserved_iff]
      rintro (h | h)
      · exact ‹(opcodeField w).toNat = 0xD → False› h
      · exact ‹(opcodeField w).toNat = 0xE → False› h
    exact ⟨hopcode, hdefined, not_legalWord_of_not_modeIsDefined hdefined⟩
  all_goals
    rename_i hop hmode
    exact bothFields_judged _ (masksAt_of_fields hop hmode rfl)

/-- The four things the table can say of a word are exclusive, so a right answer is the only one. -/
theorem Judged.iffs {w : Word} {r : Except Reject Head} (hj : Judged w r) :
    ((∃ h, r = .ok h) ↔ legalWord w = true) ∧ (r = .error .reservedOpcode ↔ opcodeIsReserved w = true) ∧
    (r = .error .undefinedMode ↔ opcodeIsReserved w = false ∧ modeIsDefined w = false) ∧
    (r = .error .unusedFieldNotZero ↔ modeIsDefined w = true ∧ legalWord w = false) := by
  match r, hj with
  | .ok _, ⟨hopcode, hdefined, hlegal⟩ => simp [hopcode, hdefined, hlegal]
  | .error .unusedFieldNotZero, ⟨hopcode, hdefined, hlegal⟩ => simp [hopcode, hdefined, hlegal]
  | .error .undefinedMode, ⟨hopcode, hdefined, hlegal⟩ => simp [hopcode, hdefined, hlegal]
  | .error .reservedOpcode, ⟨hopcode, hdefined, hlegal⟩ => simp [hopcode, hdefined, hlegal]

end Sys2Proof

namespace Sys2Proof.Machine

/-- Settles O4: the table judges every answer of the decoder, and a word that does not decode is a fault. -/
theorem legalWordsAreTheTablesRows : Obligations.LegalWordsAreTheTablesRows := by
  have iffs := fun w => (decodeHead_judged w).iffs
  simp only [forall_and] at iffs
  obtain ⟨hok, hreserved, hundefined, hunused⟩ := iffs
  refine ⟨hok, hreserved, hundefined, hunused, fun s w hs hf hlegal => ?_⟩
  cases hd : decodeHead w with
  | ok h => exact absurd ((hok w).mp ⟨h, hd⟩) (ne_true_of_eq_false hlegal)
  | error e => exact step_fetchFault hs (fetchInstr_illegal hf hd)

end Sys2Proof.Machine
end

section
/-! The fetch and the decoding of a step (spec/10_state.md R25, spec/20_memory.md R59, spec/60_exceptions.md R204). -/

namespace Sys2Proof.Machine

/-! ### A two-word instruction -/

theorem fetchInstr_secondWord {s : State} {w0 w1 : Word} {build : Word → Instr} (hf : fetch s.pc s = .ok w0)
    (hd : decodeHead w0 = .ok (.needsWord build)) (hf1 : fetch (s.pc + 1) s = .ok w1) :
    fetchInstr s = .ok (w0, build w1) := by
  rw [fetchInstr_needsWord hf hd, hf1]

theorem fetchInstr_secondFault {s : State} {w0 : Word} {build : Word → Instr} {f : Fault} (hf : fetch s.pc s = .ok w0)
    (hd : decodeHead w0 = .ok (.needsWord build)) (hf1 : fetch (s.pc + 1) s = .error f) : fetchInstr s = .error f := by
  rw [fetchInstr_needsWord hf hd, hf1]

theorem fetchInstr_firstFault {s : State} {f : Fault} (hf : fetch s.pc s = .error f) : fetchInstr s = .error f := by
  simp only [fetchInstr, hf]

/-! ### The statements -/

/-- Settles O6: `step_fetched` with a one-word and with a two-word fetch. -/
theorem stepRunsTheDecodedInstruction : Obligations.StepRunsTheDecodedInstruction :=
  ⟨fun _ _ _ hs hf hd => step_fetched hs (fetchInstr_complete hf hd),
    fun _ _ _ _ hs hf hd hf1 => step_fetched hs (fetchInstr_secondWord hf hd hf1)⟩

/-- Settles O7: the words in memory are fetched, and the first decodes to the instruction. -/
theorem stepRunsTheInstructionStandingAtPc : Obligations.StepRunsTheInstructionStandingAtPc := by
  intro s i hs hwords
  obtain ⟨hone, htwo⟩ := stepRunsTheDecodedInstruction
  obtain ⟨w, he, hd⟩ | ⟨w, w1, build, he, hd, rfl⟩ := decodeHead_encodeWords i
  · rw [he] at hwords ⊢
    obtain ⟨hin, hr, -⟩ := hwords
    exact ⟨w, rfl, hone s w i hs (fetch_storage hin hr) hd⟩
  · rw [he] at hwords ⊢
    obtain ⟨hin, hr, hin1, hr1, -⟩ := hwords
    exact ⟨w, rfl, htwo s w w1 build hs (fetch_storage hin hr) hd (fetch_storage hin1 hr1)⟩

/-- Settles O8: the two ways a fetch faults, for the first word and for the second. -/
theorem fetchFaultsInOrder : Obligations.FetchFaultsInOrder :=
  ⟨fun s hs hio => step_fetchFault hs (fetchInstr_firstFault (fetch_io s hio)),
    fun _ hs hin hr => step_fetchFault hs (fetchInstr_firstFault (fetch_unwritten hin hr)),
    fun s _ _ hs hf hd hio => step_fetchFault hs (fetchInstr_secondFault hf hd (fetch_io s hio)),
    fun _ _ _ hs hf hd hin hr => step_fetchFault hs (fetchInstr_secondFault hf hd (fetch_unwritten hin hr))⟩

end Sys2Proof.Machine
end

section
/-! The reset state (spec/10_state.md R38, R39, spec/70_reset_and_hazards.md R243). -/

namespace Sys2Proof.Machine

/-- Settles O10: the fields of `State.boot` as it writes them. -/
theorem resetValues : Obligations.ResetValues :=
  ⟨fun _ => ⟨rfl, rfl, rfl, rfl, rfl, rfl⟩, rfl, rfl, rfl, rfl, rfl⟩

/-- Settles O11: the boot memory is the image's, read back by induction on the image. -/
theorem bootMemoryIsTheImage : Obligations.BootMemoryIsTheImage := fun b => Memory.readWord_ofImage b.image

/-- Settles O12: loading an image keeps the canonical form; the fixed reset state has the empty one. -/
theorem resetMeetsTheInvariant : Obligations.ResetMeetsTheInvariant :=
  ⟨Memory.wf_ofImage [], fun b => Memory.wf_ofImage b.image⟩

end Sys2Proof.Machine
end

section
/-! What an instruction and a step leave as it was, over all instructions (spec/10_state.md R21, R35 to R37,
spec/20_memory.md R51, R58, spec/70_reset_and_hazards.md R252), from what `exec_next` says an instruction can be: none
of the accesses, a load that got its word, a load that waits, a store. -/

namespace Sys2Proof.Machine

/-! ### A data access leaves the registers -/

theorem memRead_value_regs {a w : Word} {s u : State} (h : memRead a s = .value w u) : u.regs = s.regs := by
  obtain ⟨-, -, rfl⟩ | ⟨-, -, rfl⟩ | ⟨-, b, rest, -, -, rfl⟩ | ⟨-, -, -, rfl⟩ := memRead_value h
  · rfl
  · rfl
  · rfl
  · rfl

theorem memWrite_ok_regs {a v : Word} {s u : State} (h : memWrite a v s = .ok u) : u.regs = s.regs := by
  obtain ⟨-, rfl⟩ | ⟨-, e, rfl⟩ := memWrite_ok h
  · rfl
  · rfl

/-! ### Storage -/

/-- The storage an instruction leaves: as it was, or with the word at its store address written, which then lies in
storage (R51, R58). -/
theorem exec_mem {i : Instr} {s t : State} (h : exec i s = .next t) : t.mem = s.mem ∨
    ∃ a, storeTarget i s = some a ∧ InStorage a ∧ t.mem = s.mem.writeWord a (storeValue i s) := by
  obtain ⟨-, -, hmem, -⟩ | ⟨-, -, -, -, -, -, -, hmem, -⟩ | ⟨-, -, -, -, rfl⟩ |
    ⟨a, b, u, hstore, -, hb, hwrite, -, hmem, -⟩ := exec_next h
  case inl => exact .inl hmem
  case inr.inl => exact .inl hmem
  case inr.inr.inl => exact .inl rfl
  case inr.inr.inr =>
    have hbmem : b.mem = s.mem := by obtain rfl | rfl := hb <;> rfl
    obtain ⟨hin, rfl⟩ | ⟨-, e, rfl⟩ := memWrite_ok hwrite
    · exact .inr ⟨a, hstore, hin, hmem.trans (congrArg (Memory.writeWord · a (storeValue i s)) hbmem)⟩
    · exact .inl (hmem.trans hbmem)

/-- Settles O20: an instruction writes the word at its store address, or no storage at all. -/
theorem memoryWrittenIsTheStoreTarget : Obligations.MemoryWrittenIsTheStoreTarget := by
  intro i s t h
  obtain hmem | ⟨a, hstore, hin, hmem⟩ := exec_mem h
  · exact ⟨fun key _ => by rw [hmem], fun _ _ _ => hmem⟩
  · refine ⟨fun key hkey => ?bytes, fun c hc hio => ?io⟩
    case bytes =>
      obtain ⟨hlow, hhigh⟩ := hkey a hstore
      exact bytesKeptBut_of_writeWord hmem key hlow hhigh
    case io =>
      obtain rfl : a = c := Option.some.inj (hstore.symm.trans hc)
      exact absurd hin hio

theorem exec_keeps_inv {i : Instr} {s t : State} (hs : s.Inv) (h : exec i s = .next t) : t.Inv := by
  obtain hmem | ⟨a, -, hin, hmem⟩ := exec_mem h
  · rw [State.Inv, hmem]
    exact hs
  · rw [State.Inv, hmem]
    exact Memory.wf_writeWord hs hin _

/-- Settles O13: the only write of storage a step makes is that of a word below the I/O region. -/
theorem stepKeepsTheInvariant : Obligations.StepKeepsTheInvariant := by
  intro s t hs h
  obtain ⟨-, rfl⟩ | ⟨-, w0, i, -, hexec⟩ := step_next h
  · exact hs
  · exact exec_keeps_inv (s := s.loadIr w0) hs hexec

/-! ### The output trace and the input stream -/

theorem exec_out_inp_eof {i : Instr} {s t : State} (h : exec i s = .next t) :
    (t.out = s.out ∨ ∃ e, t.out = s.out ++ [e]) ∧ (t.inp = s.inp ∨ ∃ b, s.inp = b :: t.inp) ∧ t.eof = s.eof := by
  obtain ⟨-, -, -, hout, hinp, heof, -⟩ | ⟨a, w, u, -, -, hread, -, -, hout, hinp, heof, -⟩ | ⟨a, -, -, -, rfl⟩ |
    ⟨a, b, u, -, -, hb, hwrite, -, -, hout, hinp, heof, -⟩ := exec_next h
  case inl => exact ⟨.inl hout, .inl hinp, heof⟩
  case inr.inl =>
    refine ⟨.inl hout, ?_, heof⟩
    rw [hinp]
    obtain ⟨-, -, rfl⟩ | ⟨-, -, rfl⟩ | ⟨-, b, rest, hbytes, -, rfl⟩ | ⟨-, -, -, rfl⟩ := memRead_value hread
    · exact .inl rfl
    · exact .inl rfl
    · exact .inr ⟨b, hbytes⟩
    · exact .inl rfl
  case inr.inr.inl => exact ⟨.inl rfl, .inl rfl, rfl⟩
  case inr.inr.inr =>
    refine ⟨?_, .inl hinp, heof⟩
    have hbout : b.out = s.out := by obtain rfl | rfl := hb <;> rfl
    rw [hout, ← hbout]
    obtain ⟨-, rfl⟩ | ⟨-, e, rfl⟩ := memWrite_ok hwrite
    · exact .inl rfl
    · exact .inr ⟨e, rfl⟩

/-- Settles O15: an instruction makes one data access at most, and the fetch touches no device. -/
theorem stepOnlyAppendsOutputAndConsumesInput : Obligations.StepOnlyAppendsOutputAndConsumesInput := by
  intro s t h
  obtain ⟨-, rfl⟩ | ⟨-, w0, i, -, hexec⟩ := step_next h
  · exact ⟨.inl rfl, .inl rfl, rfl⟩
  · exact exec_out_inp_eof (s := s.loadIr w0) hexec

/-! ### The cycle counter -/

/-- Settles O16: of the four things an instruction can be, only the waiting load counts no cycle. -/
theorem everyCompletedInstructionTakesOneCycle : Obligations.EveryCompletedInstructionTakesOneCycle := by
  intro i s t h
  obtain ⟨-, -, -, -, -, -, -, hcycle, -⟩ | ⟨-, -, -, -, -, -, -, -, -, -, -, -, hcycle, -⟩ |
    ⟨a, hload, -, hblocked, rfl⟩ | ⟨-, -, -, -, -, -, -, -, -, -, -, -, -, hcycle, -⟩ := exec_next h
  case inl => exact .inl hcycle
  case inr.inl => exact .inl hcycle
  case inr.inr.inl =>
    obtain ⟨rfl, hinp, heof⟩ := memRead_blocked hblocked
    exact .inr ⟨rfl, hload, hinp, heof⟩
  case inr.inr.inr => exact .inl hcycle

end Sys2Proof.Machine
end

section
/-! The general registers an instruction writes (spec/10_state.md R21, R22): each meaning ends in writes of its
destination and, for the stack instructions, of SP; a data access touches none. -/

namespace Sys2Proof.Machine

theorem withLoaded_keeps_reg {a : Word} {s t : State} {finish : Word → State → State} {q : Reg}
    (h : withLoaded a s (fun w u => .next (finish w u)) = .next t) (hfinish : ∀ w u, (finish w u).reg q = u.reg q) :
    t.reg q = s.reg q := by
  obtain ⟨w, u, hread, hnext⟩ | ⟨-, rfl⟩ := withLoaded_next h
  · cases hnext
    exact (hfinish w u).trans (congrArg (RegFile.get · q) (memRead_value_regs hread))
  · rfl

theorem withStored_keeps_reg {a v pc : Word} {b t : State} (q : Reg)
    (h : withStored a v b (fun u => .next (u.retire pc)) = .next t) : t.reg q = b.reg q := by
  obtain ⟨u, hwrite, hnext⟩ := withStored_next h
  cases hnext
  have hregs : u.regs = b.regs := memWrite_ok_regs hwrite
  exact congrArg (RegFile.get · q) hregs

theorem execDiv_keeps_reg {rd rs q : Reg} {s t : State} (hq : q ≠ rd) (h : execDiv rd rs s = .next t) :
    t.reg q = s.reg q := by
  unfold execDiv at h
  split at h
  case isTrue => cases h; rfl
  case isFalse => cases h; exact s.reg_setReg_other _ hq

/-- Settles O19, by what each instruction ends in: a load, a store, a write of Rd, or no register write. -/
theorem registersWrittenAreTheDestinations : Obligations.RegistersWrittenAreTheDestinations := by
  intro i s t h r hr
  cases i with
  | ldDirect rd | ldIndirect rd =>
    exact withLoaded_keeps_reg h fun w u => u.reg_setReg_other w (List.ne_of_not_mem_cons hr)
  | pop rd =>
    have hsp : r ≠ .r7 := List.ne_of_not_mem_cons (List.not_mem_of_not_mem_cons hr)
    refine withLoaded_keeps_reg h fun w u => ?_
    obtain ⟨-, -, hothers⟩ := setReg_incrementSp_reg u rd w
    exact hothers r (List.ne_of_not_mem_cons hr) hsp
  | ret => exact withLoaded_keeps_reg h fun w u => u.incrementSp_reg_other (List.ne_of_not_mem_cons hr)
  | stDirect | stIndirect => exact withStored_keeps_reg r h
  | push | call =>
    exact (withStored_keeps_reg r h).trans (s.decrementSp_reg_other (List.ne_of_not_mem_cons hr))
  | div rd rs => exact execDiv_keeps_reg (List.ne_of_not_mem_cons hr) h
  | nop | beq | bne | bgt | blt | bge | ble | bcs | bcc | jmp | cmp | halt => cases h; rfl
  | _ => cases h; exact s.reg_setReg_other _ (List.ne_of_not_mem_cons hr)

end Sys2Proof.Machine
end

section
/-! Repeated accesses (spec/20_memory.md R60): storage is idempotent, the devices are not. -/

namespace Sys2Proof.Machine

/-- Writing the same word again changes nothing: the canonical form is determined by what it reads as. -/
theorem Memory.writeWord_writeWord {m : Memory} (hm : m.wf) {a : Word} (ha : InStorage a) (v : Word) :
    (m.writeWord a v).writeWord a v = m.writeWord a v := by
  have once := Memory.wf_writeWord hm ha v
  obtain ⟨hsortedTwice, -⟩ := Memory.wf_writeWord once ha v
  obtain ⟨hsorted, -⟩ := once
  refine Memory.ext_readCell hsortedTwice hsorted fun key => ?_
  rw [Memory.readCell_writeWord (m.writeWord a v), Memory.readCell_writeWord]
  split
  · rfl
  · split <;> rfl

theorem memRead_value_storage {a w : Word} {s t : State} (ha : InStorage a) (h : memRead a s = .value w t) :
    t = s ∧ s.mem.readWord a = some w := by
  obtain ⟨-, hword, rfl⟩ | ⟨rfl, -⟩ | ⟨rfl, -⟩ | ⟨rfl, -⟩ := memRead_value h
  · exact ⟨rfl, hword⟩
  all_goals exact absurd ha (by decide)

theorem memWrite_again {a v : Word} {s t : State} (hs : s.Inv) (ha : InStorage a) (h : memWrite a v s = .ok t) :
    memWrite a v t = .ok t := by
  rw [memWrite_storage v s ha] at h
  cases h
  rw [memWrite_storage v _ ha, State.setMem_mem, Memory.writeWord_writeWord hs ha]
  rfl

theorem memWrite_io {a v : Word} {s t : State} (ha : ¬InStorage a) (h : memWrite a v s = .ok t) :
    ∃ e, t = s.emit e := by
  obtain ⟨hin, -⟩ | ⟨-, hevent⟩ := memWrite_ok h
  · exact absurd hin ha
  · exact hevent

theorem memRead_char_tail {w : Word} {s t : State} (h : memRead 0xF820 s = .value w t) (hs : s.inp ≠ []) :
    s.inp.tail = t.inp := by
  obtain ⟨b, rest, hinp⟩ := List.exists_cons_of_ne_nil hs
  rw [memRead_char hinp] at h
  cases h
  rw [hinp]
  rfl

/-- Settles O29, clause by clause: a read and two writes of storage, a write and a read of a device. -/
theorem storageIsIdempotentDevicesAreNot : Obligations.StorageIsIdempotentDevicesAreNot :=
  ⟨fun _ _ _ _ => memRead_value_storage,
    fun a v s ha => ⟨_, memWrite_storage v s ha, memRead_storage ha (Memory.readWord_writeWord_same s.mem a v)⟩,
    fun _ _ _ _ => memWrite_again, fun _ _ _ _ => memWrite_io, fun _ _ _ => memRead_char_tail⟩

end Sys2Proof.Machine
end

section
/-! A load that waits for input (spec/60_exceptions.md R221, R222, R226; log entries 10 and 12). -/

namespace Sys2Proof.Machine

theorem toNat_setWidth_byte (b : Byte) : (b.setWidth 16 : Word).toNat = b.toNat :=
  BitVec.toNat_setWidth_of_le (by decide)

/-- POP R7 leaves the byte plus one, which always fits (decision D29). -/
theorem toNat_setWidth_byte_add_one (b : Byte) : (b.setWidth 16 + 1 : Word).toNat = b.toNat + 1 := by
  rw [← toNat_setWidth_byte]
  have hb : (b.setWidth 16 : Word).toNat < 256 := (toNat_setWidth_byte b).trans_lt b.isLt
  exact BitVec.toNat_add_of_lt (show _ + 1 < 2 ^ 16 by omega)

/-- An instruction that loads is one data read and then completes. -/
theorem exec_of_loadSource {i : Instr} {s : State} {a : Word} (h : loadSource i s = some a) :
    ∃ k, exec i s = withLoaded a s k := by
  cases i with
  | ldDirect | ldIndirect | pop | ret => cases h; exact ⟨_, rfl⟩
  | _ => cases h

theorem exec_waits {i : Instr} {s : State} (h : loadSource i s = some 0xF820) (hinp : s.inp = [])
    (heof : s.eof = .block) : exec i s = .next s := by
  obtain ⟨k, hexec⟩ := exec_of_loadSource h
  exact hexec.trans (withLoaded_blocked (memRead_eof_block hinp heof))

theorem provideInput_inp_of_nil {s : State} (h : s.inp = []) (bs : List Byte) : (s.provideInput bs).inp = bs := by
  rw [State.provideInput_inp, h, List.nil_append]

/-- Settles O54: a load waits where the read does, and with input it is the load of the byte. -/
theorem waitingLoadResumesWhenInputArrives : Obligations.WaitingLoadResumesWhenInputArrives := by
  intro i s b bs h hinp heof
  refine ⟨exec_waits h hinp heof, ?_⟩
  have hbytes : (s.provideInput (b :: bs)).inp = b :: bs := provideInput_inp_of_nil hinp _
  cases i with
  | ldDirect rd addr =>
    obtain ⟨⟨-, -, -, hchar, -⟩, -⟩ := ldDirectLoadsTheWord rd addr (s.provideInput (b :: bs))
    obtain ⟨t, ht, hrd, hflags, hothers, hrest, hpc, hcycle⟩ := hchar b bs (Option.some.inj h) hbytes
    refine ⟨t, ht, ?_, nofun, nofun, nofun, nofun, fun _ => hpc, fun r hr => hothers r (List.ne_of_not_mem_cons hr),
      hflags, hrest, hcycle⟩
    rintro _ _ ⟨⟩
    rw [hrd, toNat_setWidth_byte]
  | ldIndirect rd rs =>
    obtain ⟨⟨-, -, -, hchar, -⟩, -⟩ := ldIndirectLoadsTheWord rd rs (s.provideInput (b :: bs))
    obtain ⟨t, ht, hrd, hflags, hothers, hrest, hpc, hcycle⟩ := hchar b bs (Option.some.inj h) hbytes
    refine ⟨t, ht, nofun, ?_, nofun, nofun, nofun, fun _ => hpc, fun r hr => hothers r (List.ne_of_not_mem_cons hr),
      hflags, hrest, hcycle⟩
    rintro _ _ ⟨⟩
    rw [hrd, toNat_setWidth_byte]
  | pop rd =>
    obtain ⟨⟨-, -, -, hchar, -⟩, -⟩ := popLoadsAtTheStackPointer rd (s.provideInput (b :: bs))
    obtain ⟨t, ht, hsp, hrd, hothers, hflags, hrest, hpc, hcycle⟩ := hchar b bs (Option.some.inj h) hbytes
    refine ⟨t, ht, nofun, nofun, ?loaded, ?sp, nofun, fun _ => hpc, fun r hr => ?others, hflags, hrest, hcycle⟩
    case loaded =>
      rintro _ ⟨⟩ hne
      obtain ⟨hword, hup⟩ := hrd hne
      exact ⟨by rw [hword, toNat_setWidth_byte], hup⟩
    case sp =>
      rintro ⟨⟩
      rw [hsp rfl, toNat_setWidth_byte_add_one]
    case others =>
      exact hothers r (List.ne_of_not_mem_cons hr) (List.ne_of_not_mem_cons (List.not_mem_of_not_mem_cons hr))
  | ret =>
    obtain ⟨⟨-, -, -, hchar, -⟩, -⟩ := retPopsTheProgramCounter (s.provideInput (b :: bs))
    obtain ⟨t, ht, hpc, hsp, hothers, hflags, hrest, hcycle⟩ := hchar b bs (Option.some.inj h) hbytes
    refine ⟨t, ht, nofun, nofun, nofun, nofun, fun _ => ⟨?_, hsp⟩, fun hne => absurd rfl hne,
      fun r hr => hothers r (List.ne_of_not_mem_cons hr), hflags, hrest, hcycle⟩
    rw [hpc, toNat_setWidth_byte]
  | _ => cases h

end Sys2Proof.Machine
end

section
/-! Standard output (spec/60_exceptions.md R216, R219; decision D21, log entry 32): the default text of an integer, read
back digit by digit. -/

namespace Sys2Proof.Machine

/-- The number that decimal digits in ASCII stand for, most significant first. -/
def decimalValue (bs : List Byte) : Nat := bs.foldl (fun acc (b : Byte) => 10 * acc + (b.toNat - 48)) 0

theorem decimalValue_append_digit (bs : List Byte) (b : Byte) :
    decimalValue (bs ++ [b]) = 10 * decimalValue bs + (b.toNat - 48) := by
  rw [decimalValue, List.foldl_append]
  rfl

theorem toNat_asciiDigit {d : Nat} (hd : d < 10) : (BitVec.ofNat 8 (48 + d)).toNat = 48 + d := by
  rw [BitVec.toNat_ofNat]
  exact Nat.mod_eq_of_lt (by omega)

theorem decimalDigits_of_lt {n : Nat} (fuel : Nat) (hn : n < 10) :
    decimalDigits (fuel + 1) n = [BitVec.ofNat 8 (48 + n)] := if_pos hn

theorem decimalDigits_of_ge {n : Nat} (fuel : Nat) (hn : ¬n < 10) :
    decimalDigits (fuel + 1) n = decimalDigits fuel (n / 10) ++ [BitVec.ofNat 8 (48 + n % 10)] := if_neg hn

theorem div_ten_lt {n fuel : Nat} (h : n < 10 ^ (fuel + 1)) : n / 10 < 10 ^ fuel :=
  Nat.div_lt_of_lt_mul (by rwa [← Nat.pow_succ'])

theorem decimalDigits_ne_nil (fuel n : Nat) : decimalDigits (fuel + 1) n ≠ [] := by
  by_cases hn : n < 10
  · rw [decimalDigits_of_lt fuel hn]
    exact List.cons_ne_nil _ _
  · rw [decimalDigits_of_ge fuel hn]
    exact List.append_ne_nil_of_right_ne_nil _ (List.cons_ne_nil _ _)

theorem decimalDigits_isDigit (fuel : Nat) :
    ∀ n, ∀ b ∈ decimalDigits fuel n, 48 ≤ b.toNat ∧ b.toNat ≤ 57 := by
  have digit : ∀ {d : Nat}, d < 10 → ∀ b ∈ [BitVec.ofNat 8 (48 + d)], 48 ≤ b.toNat ∧ b.toNat ≤ 57 := by
    intro d hd b hb
    rw [List.mem_singleton.mp hb, toNat_asciiDigit hd]
    omega
  induction fuel with
  | zero => exact fun _ => List.forall_mem_nil _
  | succ fuel ih =>
    intro n
    by_cases hn : n < 10
    · rw [decimalDigits_of_lt fuel hn]
      exact digit hn
    · rw [decimalDigits_of_ge fuel hn]
      exact List.forall_mem_append.mpr ⟨ih _, digit (Nat.mod_lt n (by decide))⟩

/-- With fuel for all its digits, a number's digits read back as the number. -/
theorem decimalValue_decimalDigits (fuel : Nat) : ∀ n < 10 ^ fuel, decimalValue (decimalDigits fuel n) = n := by
  induction fuel with
  | zero =>
    intro n hn
    obtain rfl : n = 0 := by omega
    rfl
  | succ fuel ih =>
    intro n hn
    by_cases hlt : n < 10
    · rw [decimalDigits_of_lt fuel hlt, ← List.nil_append [_], decimalValue_append_digit, toNat_asciiDigit hlt,
        decimalValue, List.foldl_nil]
      omega
    · have hdigit : n % 10 < 10 := Nat.mod_lt n (by decide)
      rw [decimalDigits_of_ge fuel hlt, decimalValue_append_digit, ih _ (div_ten_lt hn), toNat_asciiDigit hdigit]
      omega

/-- The first digit of a number that is not zero is not a zero. -/
theorem decimalDigits_leading (fuel : Nat) : ∀ n < 10 ^ fuel, 0 < n → ∀ b rest,
    decimalDigits fuel n = b :: rest → b.toNat ≠ 48 := by
  induction fuel with
  | zero => exact fun _ _ _ _ _ => nofun
  | succ fuel ih =>
    intro n hn hpos b rest h
    by_cases hlt : n < 10
    · rw [decimalDigits_of_lt fuel hlt] at h
      cases h
      rw [toNat_asciiDigit hlt]
      omega
    · have hvalue := decimalValue_decimalDigits fuel (n / 10) (div_ten_lt hn)
      rw [decimalDigits_of_ge fuel hlt] at h
      cases hhigh : decimalDigits fuel (n / 10) with
      | nil =>
        rw [hhigh, decimalValue, List.foldl_nil] at hvalue
        omega
      | cons c high =>
        rw [hhigh] at h
        cases h
        exact ih _ (div_ten_lt hn) (by omega) _ _ hhigh

/-- Settles O55: the trace's bytes are a `flatMap`, and five digits are fuel enough for any word. -/
theorem stdoutIsTheEventsBytes : Obligations.StdoutIsTheEventsBytes := by
  refine ⟨fun _ => rfl, fun fmt out e => ?event, fun v => ?text⟩
  case event =>
    rw [stdoutBytes, List.flatMap_append, List.flatMap_singleton]
    cases e <;> rfl
  case text =>
    have hfuel : v.toNat < 10 ^ 5 := v.isLt.trans (by decide)
    refine ⟨decimalDigits_ne_nil 4 _, decimalValue_decimalDigits 5 _ hfuel, decimalDigits_isDigit 5 _,
      fun b rest h hzero => ?_⟩
    have hv : v.toNat = 0 := by
      by_contra hne
      exact decimalDigits_leading 5 _ hfuel (Nat.pos_of_ne_zero hne) b rest h hzero
    rw [unsignedDecimal, hv] at h
    cases h
    exact ⟨rfl, hv⟩

end Sys2Proof.Machine
end
